-- ==== Sys2Proof/Word.lean ====
section
/-! DEFINITION. The words of the machine: widths and index types (00_scope.md R4, R5). -/

namespace Sys2Proof

/-- An 8-bit unsigned value: a register, a timer, a byte of memory, an immediate (`XLEN`, `TLEN`). -/
abbrev Byte := BitVec 8

/-- A 16-bit unsigned value: an instruction word, `PC`, `I`, a return address. -/
abbrev Word := BitVec 16

/-- The 12-bit address field `nnn` of an instruction (30_encoding.md R71). -/
abbrev Addr := BitVec 12

/-- A general register's index, 0 to 15: "register index always in [0,16)" (10_state.md R31). -/
abbrev Reg := Fin 16

/-- The register that doubles as the flag, `VF` (10_state.md R21). -/
abbrev flagReg : Reg := 15

/-- A key's index, 0 to 15 (60_exceptions.md R219). -/
abbrev Key := Fin 16

/-- The sixteen key states that `input.poll()` answers, true when the key is down (60_exceptions.md R219). -/
abbrev Keys := Vector Bool 16

end Sys2Proof
end

