-- ==== Sys2Proof/Machine/Fields.lean ====
section
/-! DEFINITION. The fields of an instruction word and their assembly (30_encoding.md R71, R72), and the words
that no named pattern matches (R85). -/

namespace Sys2Proof.Machine

/-- `op = w[15:12]`, the family. -/
def opField (w : Word) : BitVec 4 := w.extractLsb' 12 4

/-- `x = w[11:8]`, the first register index. -/
def xField (w : Word) : BitVec 4 := w.extractLsb' 8 4

/-- `y = w[7:4]`, the second register index. -/
def yField (w : Word) : BitVec 4 := w.extractLsb' 4 4

/-- `n = w[3:0]`, the sub-operation or the sprite height. -/
def nField (w : Word) : BitVec 4 := w.extractLsb' 0 4

/-- `kk = w[7:0]`, the immediate or the sub-operation of families E and F. -/
def kkField (w : Word) : Byte := w.extractLsb' 0 8

/-- `nnn = w[11:0]`, the address. -/
def nnnField (w : Word) : Addr := w.extractLsb' 0 12

/-- A 4-bit field read as a register index (30_encoding.md R73). -/
def toReg (b : BitVec 4) : Reg := b.toFin

/-- A register index as the 4-bit field that names it. -/
def ofReg (r : Reg) : BitVec 4 := BitVec.ofFin r

/-- Format `NNN`: `op[4] nnn[12]`. -/
def wordNNN (op : BitVec 4) (nnn : Addr) : Word := op ++ nnn

/-- Format `XKK`: `op[4] x[4] kk[8]`; format `X` has a fixed `kk`. -/
def wordXKK (op : BitVec 4) (x : Reg) (kk : Byte) : Word := (op ++ ofReg x) ++ kk

/-- Formats `XY` and `XYN`: `op[4] x[4] y[4] n[4]`. -/
def wordXYN (op : BitVec 4) (x y : Reg) (n : BitVec 4) : Word := ((op ++ ofReg x) ++ ofReg y) ++ n

/-- Two bytes as the instruction word they store, big-endian (20_memory.md R53). -/
def wordOfBytes (hi lo : Byte) : Word := hi ++ lo

/-- The byte of the lower address (20_memory.md R53). -/
def highByte (w : Word) : Byte := w.extractLsb' 8 8

/-- The byte of the higher address (20_memory.md R53). -/
def lowByte (w : Word) : Byte := w.extractLsb' 0 8

/-- The low nibbles of family 8 that are `UNKNOWN` (30_encoding.md R81, R85). -/
def unknownLow8 : List (BitVec 4) := [0x8, 0x9, 0xA, 0xB, 0xC, 0xD, 0xF]

/-- The low bytes of family E that are instructions (30_encoding.md R83). -/
def keyBytes : List Byte := [0x9E, 0xA1]

/-- The low bytes of family F that are instructions (30_encoding.md R84). -/
def miscBytes : List Byte := [0x07, 0x0A, 0x15, 0x18, 0x1E, 0x29, 0x33, 0x55, 0x65]

/-- The `UNKNOWN` set, by family, as the table of 30_encoding.md R85 lists it. -/
def unknownWord (w : Word) : Bool :=
  match (opField w).toNat with
  | 0x0 => w != 0x00E0 && w != 0x00EE
  | 0x5 => nField w != 0
  | 0x8 => unknownLow8.contains (nField w)
  | 0x9 => nField w != 0
  | 0xE => !keyBytes.contains (kkField w)
  | 0xF => !miscBytes.contains (kkField w)
  | _ => false

end Sys2Proof.Machine
end

