-- ==== Sys2Proof/Syntax.lean ====
section
/-! DEFINITION. The instructions: "a closed tagged union (one variant per opcode family, plus a catch-all
`UNKNOWN(raw16)`)" (30_encoding.md R87), one constructor per row of spec/opcode_table.json, in its order. -/

namespace Sys2Proof

/-- The 34 tags and `UNKNOWN`, with the operands of 30_encoding.md R87. -/
inductive Instr where
  | clearScreen
  | ret
  | jumpAbsolute (addr : Addr)
  | call (addr : Addr)
  | skipIfEqualImmediate (x : Reg) (kk : Byte)
  | skipIfNotEqualImmediate (x : Reg) (kk : Byte)
  | skipIfRegistersEqual (x y : Reg)
  | setImmediate (x : Reg) (kk : Byte)
  | addImmediate (x : Reg) (kk : Byte)
  | copyRegister (x y : Reg)
  | bitOr (x y : Reg)
  | bitAnd (x y : Reg)
  | bitXor (x y : Reg)
  | add (x y : Reg)
  | subtract (x y : Reg)
  | shiftRight (x : Reg)
  | subtractReversed (x y : Reg)
  | shiftLeft (x : Reg)
  | skipIfRegistersNotEqual (x y : Reg)
  | setIndex (addr : Addr)
  | jumpIndexed (addr : Addr)
  | generateRandomByte (x : Reg) (mask : Byte)
  | drawSprite (x y : Reg) (height : Fin 16)
  | skipIfKeyPressed (x : Reg)
  | skipIfKeyNotPressed (x : Reg)
  | loadDelayTimer (x : Reg)
  | waitForKey (x : Reg)
  | storeDelayTimer (x : Reg)
  | storeSoundTimer (x : Reg)
  | addToIndex (x : Reg)
  | setIndexToDigitSprite (x : Reg)
  | convertToDecimalDigits (x : Reg)
  | storeRegistersToMemory (x : Reg)
  | loadRegistersFromMemory (x : Reg)
  | unknown (raw : Word)
  deriving DecidableEq, Repr

end Sys2Proof
end

