-- ==== Sys2Proof/WellFormed.lean ====
section
/-! DEFINITION. Which instructions are well formed. The operand types already bound every register index, key
height, immediate and address (30_encoding.md R73), so the one check left is that `UNKNOWN` carries a word that
no named instruction has (30_encoding.md R76, R85). -/

namespace Sys2Proof

/-- An instruction that some word decodes to. -/
def Instr.wellFormed : Instr → Bool
  | .clearScreen => true
  | .ret => true
  | .jumpAbsolute _ => true
  | .call _ => true
  | .skipIfEqualImmediate _ _ => true
  | .skipIfNotEqualImmediate _ _ => true
  | .skipIfRegistersEqual _ _ => true
  | .setImmediate _ _ => true
  | .addImmediate _ _ => true
  | .copyRegister _ _ => true
  | .bitOr _ _ => true
  | .bitAnd _ _ => true
  | .bitXor _ _ => true
  | .add _ _ => true
  | .subtract _ _ => true
  | .shiftRight _ => true
  | .subtractReversed _ _ => true
  | .shiftLeft _ => true
  | .skipIfRegistersNotEqual _ _ => true
  | .setIndex _ => true
  | .jumpIndexed _ => true
  | .generateRandomByte _ _ => true
  | .drawSprite _ _ _ => true
  | .skipIfKeyPressed _ => true
  | .skipIfKeyNotPressed _ => true
  | .loadDelayTimer _ => true
  | .waitForKey _ => true
  | .storeDelayTimer _ => true
  | .storeSoundTimer _ => true
  | .addToIndex _ => true
  | .setIndexToDigitSprite _ => true
  | .convertToDecimalDigits _ => true
  | .storeRegistersToMemory _ => true
  | .loadRegistersFromMemory _ => true
  | .unknown raw => Machine.unknownWord raw

end Sys2Proof
end

