-- ==== Sys2Proof/Decode.lean ====
section
/-! DEFINITION. The decoder and the encoder (30_encoding.md): a total, pure function from a word to an instruction,
the opcode table, the encoder, the batch form, the decoder's outputs as a block, and the assembly notation. -/

namespace Sys2Proof

open Machine (opField xField yField nField kkField nnnField toReg wordNNN wordXKK wordXYN wordOfBytes
  highByte lowByte)

/-- Family 8, dispatched on the low nibble (30_encoding.md R81); `y` is ignored by the two shifts. -/
def decodeArithmetic (w : Word) : Instr :=
  let x := toReg (xField w)
  let y := toReg (yField w)
  match (nField w).toNat with
  | 0x0 => .copyRegister x y
  | 0x1 => .bitOr x y
  | 0x2 => .bitAnd x y
  | 0x3 => .bitXor x y
  | 0x4 => .add x y
  | 0x5 => .subtract x y
  | 0x6 => .shiftRight x
  | 0x7 => .subtractReversed x y
  | 0xE => .shiftLeft x
  | _ => .unknown w

/-- Family E, dispatched on the whole low byte (30_encoding.md R83). -/
def decodeKey (w : Word) : Instr :=
  let x := toReg (xField w)
  match (kkField w).toNat with
  | 0x9E => .skipIfKeyPressed x
  | 0xA1 => .skipIfKeyNotPressed x
  | _ => .unknown w

/-- Family F, dispatched on the whole low byte (30_encoding.md R84). -/
def decodeMisc (w : Word) : Instr :=
  let x := toReg (xField w)
  match (kkField w).toNat with
  | 0x07 => .loadDelayTimer x
  | 0x0A => .waitForKey x
  | 0x15 => .storeDelayTimer x
  | 0x18 => .storeSoundTimer x
  | 0x1E => .addToIndex x
  | 0x29 => .setIndexToDigitSprite x
  | 0x33 => .convertToDecimalDigits x
  | 0x55 => .storeRegistersToMemory x
  | 0x65 => .loadRegistersFromMemory x
  | _ => .unknown w

/-- The fifteen families of the high nibble; high nibble 0 has no generic family (30_encoding.md R75, R77). -/
def decodeFamily (w : Word) : Instr :=
  let x := toReg (xField w)
  let y := toReg (yField w)
  match (opField w).toNat with
  | 0x1 => .jumpAbsolute (nnnField w)
  | 0x2 => .call (nnnField w)
  | 0x3 => .skipIfEqualImmediate x (kkField w)
  | 0x4 => .skipIfNotEqualImmediate x (kkField w)
  | 0x5 => if nField w = 0 then .skipIfRegistersEqual x y else .unknown w
  | 0x6 => .setImmediate x (kkField w)
  | 0x7 => .addImmediate x (kkField w)
  | 0x8 => decodeArithmetic w
  | 0x9 => if nField w = 0 then .skipIfRegistersNotEqual x y else .unknown w
  | 0xA => .setIndex (nnnField w)
  | 0xB => .jumpIndexed (nnnField w)
  | 0xC => .generateRandomByte x (kkField w)
  | 0xD => .drawSprite x y (toReg (nField w))
  | 0xE => decodeKey w
  | 0xF => decodeMisc w
  | _ => .unknown w

/-- `decode(word)`, "total and pure — it never fails"; the two fixed words are recognised before the dispatch on
the high nibble (30_encoding.md R74, R75, R76). -/
def decode (w : Word) : Instr :=
  if w = 0x00E0 then .clearScreen
  else if w = 0x00EE then .ret
  else decodeFamily w

/-- The word of an instruction, from the patterns of 30_encoding.md R77 to R84. The ignored `y` field of the two
shifts is written 0 (DESIGN CHOICE, safe: log 9). -/
def encode : Instr → Word
  | .clearScreen => 0x00E0
  | .ret => 0x00EE
  | .jumpAbsolute addr => wordNNN 0x1 addr
  | .call addr => wordNNN 0x2 addr
  | .skipIfEqualImmediate x kk => wordXKK 0x3 x kk
  | .skipIfNotEqualImmediate x kk => wordXKK 0x4 x kk
  | .skipIfRegistersEqual x y => wordXYN 0x5 x y 0x0
  | .setImmediate x kk => wordXKK 0x6 x kk
  | .addImmediate x kk => wordXKK 0x7 x kk
  | .copyRegister x y => wordXYN 0x8 x y 0x0
  | .bitOr x y => wordXYN 0x8 x y 0x1
  | .bitAnd x y => wordXYN 0x8 x y 0x2
  | .bitXor x y => wordXYN 0x8 x y 0x3
  | .add x y => wordXYN 0x8 x y 0x4
  | .subtract x y => wordXYN 0x8 x y 0x5
  | .shiftRight x => wordXYN 0x8 x 0 0x6
  | .subtractReversed x y => wordXYN 0x8 x y 0x7
  | .shiftLeft x => wordXYN 0x8 x 0 0xE
  | .skipIfRegistersNotEqual x y => wordXYN 0x9 x y 0x0
  | .setIndex addr => wordNNN 0xA addr
  | .jumpIndexed addr => wordNNN 0xB addr
  | .generateRandomByte x mask => wordXKK 0xC x mask
  | .drawSprite x y height => wordXYN 0xD x y (Machine.ofReg height)
  | .skipIfKeyPressed x => wordXKK 0xE x 0x9E
  | .skipIfKeyNotPressed x => wordXKK 0xE x 0xA1
  | .loadDelayTimer x => wordXKK 0xF x 0x07
  | .waitForKey x => wordXKK 0xF x 0x0A
  | .storeDelayTimer x => wordXKK 0xF x 0x15
  | .storeSoundTimer x => wordXKK 0xF x 0x18
  | .addToIndex x => wordXKK 0xF x 0x1E
  | .setIndexToDigitSprite x => wordXKK 0xF x 0x29
  | .convertToDecimalDigits x => wordXKK 0xF x 0x33
  | .storeRegistersToMemory x => wordXKK 0xF x 0x55
  | .loadRegistersFromMemory x => wordXKK 0xF x 0x65
  | .unknown raw => raw

/-- `tag[5:0]`, the tag numbers of 30_encoding.md R87. -/
def tagOf : Instr → BitVec 6
  | .clearScreen => 0
  | .ret => 1
  | .jumpAbsolute _ => 2
  | .call _ => 3
  | .skipIfEqualImmediate _ _ => 4
  | .skipIfNotEqualImmediate _ _ => 5
  | .skipIfRegistersEqual _ _ => 6
  | .setImmediate _ _ => 7
  | .addImmediate _ _ => 8
  | .copyRegister _ _ => 9
  | .bitOr _ _ => 10
  | .bitAnd _ _ => 11
  | .bitXor _ _ => 12
  | .add _ _ => 13
  | .subtract _ _ => 14
  | .shiftRight _ => 15
  | .subtractReversed _ _ => 16
  | .shiftLeft _ => 17
  | .skipIfRegistersNotEqual _ _ => 18
  | .setIndex _ => 19
  | .jumpIndexed _ => 20
  | .generateRandomByte _ _ => 21
  | .drawSprite _ _ _ => 22
  | .skipIfKeyPressed _ => 23
  | .skipIfKeyNotPressed _ => 24
  | .loadDelayTimer _ => 25
  | .waitForKey _ => 26
  | .storeDelayTimer _ => 27
  | .storeSoundTimer _ => 28
  | .addToIndex _ => 29
  | .setIndexToDigitSprite _ => 30
  | .convertToDecimalDigits _ => 31
  | .storeRegistersToMemory _ => 32
  | .loadRegistersFromMemory _ => 33
  | .unknown _ => 34

/-- One row of the opcode map: a word belongs to it when its bits under `mask` are `bits` (30_encoding.md R77 to
R84, the columns match and mask of spec/opcode_table.json). -/
structure Row where
  tag : BitVec 6
  bits : Word
  mask : Word
  deriving DecidableEq, Repr

/-- The word has the row's pattern. -/
def Row.fits (r : Row) (w : Word) : Bool := w &&& r.mask == r.bits

/-- Rows of the formats FIXED, NNN and XKK. -/
def rowsWide : List Row :=
  [⟨0, 0x00E0, 0xFFFF⟩, ⟨1, 0x00EE, 0xFFFF⟩] ++
  [⟨2, 0x1000, 0xF000⟩, ⟨3, 0x2000, 0xF000⟩, ⟨19, 0xA000, 0xF000⟩, ⟨20, 0xB000, 0xF000⟩] ++
  [⟨4, 0x3000, 0xF000⟩, ⟨5, 0x4000, 0xF000⟩, ⟨7, 0x6000, 0xF000⟩, ⟨8, 0x7000, 0xF000⟩, ⟨21, 0xC000, 0xF000⟩]

/-- Rows of the formats XY and XYN. -/
def rowsPair : List Row :=
  [⟨6, 0x5000, 0xF00F⟩, ⟨18, 0x9000, 0xF00F⟩, ⟨22, 0xD000, 0xF000⟩] ++
  [⟨9, 0x8000, 0xF00F⟩, ⟨10, 0x8001, 0xF00F⟩, ⟨11, 0x8002, 0xF00F⟩, ⟨12, 0x8003, 0xF00F⟩] ++
  [⟨13, 0x8004, 0xF00F⟩, ⟨14, 0x8005, 0xF00F⟩, ⟨15, 0x8006, 0xF00F⟩, ⟨16, 0x8007, 0xF00F⟩, ⟨17, 0x800E, 0xF00F⟩]

/-- Rows of the format X. -/
def rowsSingle : List Row :=
  [⟨23, 0xE09E, 0xF0FF⟩, ⟨24, 0xE0A1, 0xF0FF⟩] ++
  [⟨25, 0xF007, 0xF0FF⟩, ⟨26, 0xF00A, 0xF0FF⟩, ⟨27, 0xF015, 0xF0FF⟩, ⟨28, 0xF018, 0xF0FF⟩, ⟨29, 0xF01E, 0xF0FF⟩] ++
  [⟨30, 0xF029, 0xF0FF⟩, ⟨31, 0xF033, 0xF0FF⟩, ⟨32, 0xF055, 0xF0FF⟩, ⟨33, 0xF065, 0xF0FF⟩]

/-- The 34 rows of the opcode map (30_encoding.md R77 to R84). -/
def opcodeRows : List Row := rowsWide ++ rowsPair ++ rowsSingle

/-- The decoder's outputs seen as a block (30_encoding.md R93): the field slices are always driven. -/
structure DecoderOutputs where
  tag : BitVec 6
  x : BitVec 4
  y : BitVec 4
  n : BitVec 4
  kk : Byte
  nnn : Addr
  raw : Word
  deriving DecidableEq, Repr

/-- The combinational decoder block (30_encoding.md R93). -/
def decoderOutputs (w : Word) : DecoderOutputs :=
  { tag := tagOf (decode w), x := xField w, y := yField w, n := nField w, kk := kkField w, nnn := nnnField w, raw := w }

/-- The answer of the batch decoder (30_encoding.md R89; 60_exceptions.md R207). -/
inductive BatchResult where
  | sequence (instrs : List Instr)
  /-- `DecodeBufferLength`: the buffer's length is zero or odd; carries the length. An error of the diagnostic
  interface, no outcome of a cycle. -/
  | bufferLength (len : Nat)
  deriving DecidableEq, Repr

/-- The instructions of a buffer, two bytes each, while two bytes are left. -/
def decodePairs : List Byte → List Instr
  | hi :: lo :: rest => decode (wordOfBytes hi lo) :: decodePairs rest
  | _ => []

/-- `decode_buffer(bytes)` (30_encoding.md R89). -/
def decodeBuffer (b : List Byte) : BatchResult :=
  if b.length = 0 ∨ b.length % 2 = 1 then .bufferLength b.length else .sequence (decodePairs b)

/-- The bytes of a word in the order the memory stores them (20_memory.md R53). -/
def bytesOfWord (w : Word) : List Byte := [highByte w, lowByte w]

/-- The instruction the decoder reads from the word `w` of the opcode table; every row has 16 bits
(30_encoding.md R70), so bits 15 to 0 are the whole instruction. -/
def decodeTableWord (_nbits w : Nat) : Option Instr :=
  match decodeBuffer (bytesOfWord (BitVec.ofNat 16 w)) with
  | .sequence (i :: _) => some i
  | .sequence [] => none
  | .bufferLength _ => none

/-- One hexadecimal digit. -/
def hexDigit (b : BitVec 4) : String :=
  ["0", "1", "2", "3", "4", "5", "6", "7", "8", "9", "A", "B", "C", "D", "E", "F"].getD b.toNat ""

/-- A register operand: `V` and the hexadecimal digit of its index (30_encoding.md R90). -/
def showReg (r : Reg) : String := "V" ++ hexDigit (Machine.ofReg r)

/-- An 8-bit immediate in hexadecimal (30_encoding.md R90). -/
def showByte (b : Byte) : String := "0x" ++ hexDigit (b.extractLsb' 4 4) ++ hexDigit (b.extractLsb' 0 4)

/-- A 12-bit address in hexadecimal (30_encoding.md R90). -/
def showAddr (a : Addr) : String :=
  "0x" ++ hexDigit (a.extractLsb' 8 4) ++ hexDigit (a.extractLsb' 4 4) ++ hexDigit (a.extractLsb' 0 4)

/-- A whole word in hexadecimal. -/
def showWord (w : Word) : String := "0x" ++ hexDigit (opField w) ++ hexDigit (xField w) ++ hexDigit (yField w) ++ hexDigit (nField w)

/-- `Tag` and its operands in parentheses. -/
def showTag (tag : String) (operands : List String) : String := tag ++ "(" ++ ", ".intercalate operands ++ ")"

/-- The assembly notation of an instruction, `Tag(operands)` (30_encoding.md R90). -/
def assembly : Instr → String
  | .clearScreen => "ClearScreen"
  | .ret => "Return"
  | .jumpAbsolute addr => showTag "JumpAbsolute" [showAddr addr]
  | .call addr => showTag "Call" [showAddr addr]
  | .skipIfEqualImmediate x kk => showTag "SkipIfEqualImmediate" [showReg x, showByte kk]
  | .skipIfNotEqualImmediate x kk => showTag "SkipIfNotEqualImmediate" [showReg x, showByte kk]
  | .skipIfRegistersEqual x y => showTag "SkipIfRegistersEqual" [showReg x, showReg y]
  | .setImmediate x kk => showTag "SetImmediate" [showReg x, showByte kk]
  | .addImmediate x kk => showTag "AddImmediate" [showReg x, showByte kk]
  | .copyRegister x y => showTag "CopyRegister" [showReg x, showReg y]
  | .bitOr x y => showTag "Or" [showReg x, showReg y]
  | .bitAnd x y => showTag "And" [showReg x, showReg y]
  | .bitXor x y => showTag "Xor" [showReg x, showReg y]
  | .add x y => showTag "Add" [showReg x, showReg y]
  | .subtract x y => showTag "Subtract" [showReg x, showReg y]
  | .shiftRight x => showTag "ShiftRight" [showReg x]
  | .subtractReversed x y => showTag "SubtractReversed" [showReg x, showReg y]
  | .shiftLeft x => showTag "ShiftLeft" [showReg x]
  | .skipIfRegistersNotEqual x y => showTag "SkipIfRegistersNotEqual" [showReg x, showReg y]
  | .setIndex addr => showTag "SetIndex" [showAddr addr]
  | .jumpIndexed addr => showTag "JumpIndexed" [showAddr addr]
  | .generateRandomByte x mask => showTag "GenerateRandomByte" [showReg x, showByte mask]
  | .drawSprite x y height => showTag "DrawSprite" [showReg x, showReg y, "0x" ++ hexDigit (Machine.ofReg height)]
  | .skipIfKeyPressed x => showTag "SkipIfKeyPressed" [showReg x]
  | .skipIfKeyNotPressed x => showTag "SkipIfKeyNotPressed" [showReg x]
  | .loadDelayTimer x => showTag "LoadDelayTimer" [showReg x]
  | .waitForKey x => showTag "WaitForKey" [showReg x]
  | .storeDelayTimer x => showTag "StoreDelayTimer" [showReg x]
  | .storeSoundTimer x => showTag "StoreSoundTimer" [showReg x]
  | .addToIndex x => showTag "AddToIndex" [showReg x]
  | .setIndexToDigitSprite x => showTag "SetIndexToDigitSprite" [showReg x]
  | .convertToDecimalDigits x => showTag "ConvertToDecimalDigits" [showReg x]
  | .storeRegistersToMemory x => showTag "StoreRegistersToMemory" [showReg x]
  | .loadRegistersFromMemory x => showTag "LoadRegistersFromMemory" [showReg x]
  | .unknown raw => showTag "UNKNOWN" [showWord raw]

/-- The conventional mnemonic of an instruction, a second spelling only (30_encoding.md R91). -/
def conventionalName : Instr → Option String
  | .clearScreen => some "CLS"
  | .ret => some "RET"
  | .jumpAbsolute _ => some "JP nnn"
  | .call _ => some "CALL nnn"
  | .skipIfEqualImmediate _ _ => some "SE Vx,kk"
  | .skipIfNotEqualImmediate _ _ => some "SNE Vx,kk"
  | .skipIfRegistersEqual _ _ => some "SE Vx,Vy"
  | .setImmediate _ _ => some "LD Vx,kk"
  | .addImmediate _ _ => some "ADD Vx,kk"
  | .copyRegister _ _ => some "LD Vx,Vy"
  | .bitOr _ _ => some "OR"
  | .bitAnd _ _ => some "AND"
  | .bitXor _ _ => some "XOR"
  | .add _ _ => some "ADD Vx,Vy"
  | .subtract _ _ => some "SUB"
  | .shiftRight _ => some "SHR"
  | .subtractReversed _ _ => some "SUBN"
  | .shiftLeft _ => some "SHL"
  | .skipIfRegistersNotEqual _ _ => some "SNE Vx,Vy"
  | .setIndex _ => some "LD I,nnn"
  | .jumpIndexed _ => some "JP V0,nnn"
  | .generateRandomByte _ _ => some "RND Vx,kk"
  | .drawSprite _ _ _ => some "DRW Vx,Vy,n"
  | .skipIfKeyPressed _ => some "SKP Vx"
  | .skipIfKeyNotPressed _ => some "SKNP Vx"
  | .loadDelayTimer _ => some "LD Vx,DT"
  | .waitForKey _ => some "LD Vx,K"
  | .storeDelayTimer _ => some "LD DT,Vx"
  | .storeSoundTimer _ => some "LD ST,Vx"
  | .addToIndex _ => some "ADD I,Vx"
  | .setIndexToDigitSprite _ => some "LD F,Vx"
  | .convertToDecimalDigits _ => some "LD B,Vx"
  | .storeRegistersToMemory _ => some "LD [I],Vx"
  | .loadRegistersFromMemory _ => some "LD Vx,[I]"
  | .unknown _ => none

end Sys2Proof
end

