-- ==== Sys2Proof/Config.lean ====
section
/-! DEFINITION. What is fixed for this machine: the parameters of 00_scope.md R4 and
93_implementation_defined.md section 2, and the free values that stand for what the host answers. -/

namespace Sys2Proof

/-- The flag convention of the two subtracts and of the left shift (43_arithmetic.md R172). -/
inductive FlagConvention where
  | reference
  | conventional
  deriving DecidableEq, Repr

/-- What the digit-sprite and decimal-digit instructions read: the register's value or its index
(00_scope.md R4, `DIGIT_OPERAND`). -/
inductive DigitOperand where
  | registerValue
  | registerIndex
  deriving DecidableEq, Repr

namespace Config

/-- `FLAG_CONVENTION`: "Only the `reference` column is this hardware" (43_arithmetic.md R172). DESIGN CHOICE of the spec,
unsafe: log 5. -/
def flagConvention : FlagConvention := .reference

/-- `DIGIT_OPERAND`, default `register_value` (42_data_movement.md R147). DESIGN CHOICE of the spec,
unsafe: log 6. -/
def digitOperand : DigitOperand := .registerValue

/-- `BLOCK_XFER_ADVANCES_PC`, default true (42_data_movement.md R148, R149). DESIGN CHOICE of the spec,
unsafe: log 7. -/
def blockXferAdvancesPc : Bool := true

/-- `MEMSIZE`: addresses 0 to 4095 (20_memory.md R50). -/
abbrev memSize : Nat := 4096

/-- `LOAD_BASE`: where `load` puts the program and where it starts (20_memory.md R51). -/
abbrev loadBase : Nat := 0x200

/-- `MAX_PROGRAM`: 4096 - 0x200 = 3584 bytes (70_reset_and_hazards.md R242). -/
abbrev maxProgram : Nat := memSize - loadBase

/-- `GLYPH_STRIDE`: bytes per glyph of the font (20_memory.md R52). -/
abbrev glyphStride : Nat := 5

/-- `TIMER_STEP`: what a timer firing subtracts (60_exceptions.md R214). -/
abbrev timerStep : Byte := 8

/-- Glyphs 0 to 7 of the font table (20_memory.md R52; log 8). -/
def fontLow : List Byte :=
  [0xF0, 0x90, 0x90, 0x90, 0xF0] ++ [0x20, 0x60, 0x20, 0x20, 0x70] ++
  [0xF0, 0x10, 0xF0, 0x80, 0xF0] ++ [0xF0, 0x10, 0xF0, 0x10, 0xF0] ++
  [0x90, 0x90, 0xF0, 0x10, 0x10] ++ [0xF0, 0x80, 0xF0, 0x10, 0xF0] ++
  [0xF0, 0x80, 0xF0, 0x90, 0xF0] ++ [0xF0, 0x10, 0x20, 0x40, 0x40]

/-- Glyphs 8 to F of the font table (20_memory.md R52; log 8). -/
def fontHigh : List Byte :=
  [0xF0, 0x90, 0xF0, 0x90, 0xF0] ++ [0xF0, 0x90, 0xF0, 0x10, 0xF0] ++
  [0xF0, 0x90, 0xF0, 0x90, 0x90] ++ [0xE0, 0x90, 0xE0, 0x90, 0xE0] ++
  [0xF0, 0x80, 0x80, 0x80, 0xF0] ++ [0xE0, 0x90, 0x90, 0x90, 0xE0] ++
  [0xF0, 0x80, 0xF0, 0x80, 0xF0] ++ [0xF0, 0x80, 0xF0, 0x80, 0x80]

/-- `FONT`: 16 glyphs of 5 bytes (20_memory.md R52). PRESUMED by the spec, unsafe for claims about its bytes: log 8. -/
def font : List Byte := fontLow ++ fontHigh

/-- Free value: the byte `random.next_byte()` answers at the n-th question, when the host has listed none
(44_io.md R181, 93_implementation_defined.md U4; log 2). -/
opaque freeByte : Nat → Byte

/-- Free value: the key states `input.poll()` answers at the n-th question, when the host has listed none
(93_implementation_defined.md U5; log 2). -/
opaque freeKeys : Nat → Keys

/-- Free value: what `input.wait_for_key()` has answered at the n-th question, `none` for no answer yet, when
the host has listed none (93_implementation_defined.md U7; log 2). -/
opaque freeWait : Nat → Option Key

/-- Free value: the collision an external display's `draw` answers at the n-th question, when the host has
listed none (93_implementation_defined.md U6; log 2). -/
opaque freeHit : Nat → Bool

end Config

end Sys2Proof
end

