-- ==== Sys2Proof/Machine/State.lean ====
section
/-! DEFINITION. The state of the machine (10_state.md R20 to R32), plain data, and the reasons a step stops. -/

namespace Sys2Proof.Machine

/-- `MEM`: the bytes that are not 0, by address, in one canonical form; an unlisted address reads 0 (20_memory.md
R50, R64). -/
abbrev Memory := List Host.Cell

/-- The canonical form: addresses strictly rising and inside 0 to 4095, and no listed byte is 0. -/
abbrev Memory.wf (m : Memory) : Prop :=
  m.Pairwise (fun c d => c.1 < d.1) ∧ ∀ c ∈ m, c.1 < Config.memSize ∧ c.2 ≠ 0

/-- The register file (10_state.md R20). -/
abbrev Regs := Vector Byte 16

/-- `PIX` of the reference display: 32 rows of 64 pixels, pixel `px` of a row is its bit `px` (60_exceptions.md
R222). -/
abbrev Pixels := Vector (BitVec 64) 32

/-- Who answers the display capability (60_exceptions.md R218; log 4). -/
inductive Display where
  /-- The host's display: its answer to `draw` is an input. -/
  | external
  /-- The reference display of 60_exceptions.md R222 composed with the block, with its pixel grid. -/
  | reference (pix : Pixels)
  deriving DecidableEq, Repr

/-- One call of a capability operation with its arguments (40_cycle.md R111). -/
inductive Call where
  | clear
  | draw (x y : Byte) (rows : List Byte)
  | poll
  | waitForKey
  | nextByte
  | toneStart
  | toneEnd
  deriving DecidableEq, Repr

/-- The answers of the capabilities (44_io.md R186): those the host has listed, each list's head first, and how
many the block has asked for. Past the end of a list the answer is a free value of Config (log 2). -/
structure Inputs where
  random : List Byte
  polls : List Keys
  waits : List (Option Key)
  hits : List Bool
  asked : Nat
  deriving DecidableEq, Repr

/-- The machine. `v` to `mem` are the block's state (10_state.md R20 to R29); `display` is the composed
collaborator; `held`, `inputs` and `calls` are the model's own (DESIGN CHOICE, safe: logs 1, 2, 3). -/
structure State where
  /-- `V[0]` to `V[15]`. -/
  v : Regs
  /-- The index register `I`. -/
  i : Word
  /-- The program counter `PC`. -/
  pc : Word
  /-- The stack pointer `SP`, 0 to 16 (DEDUCED, safe: log 12). -/
  sp : Fin 17
  /-- The return slots `STACK[0]` to `STACK[15]`. -/
  stack : Vector Word 16
  /-- The delay timer `DT`. -/
  dt : Byte
  /-- The sound timer `ST`. -/
  st : Byte
  /-- The prescaler `TICK`. -/
  tick : BitVec 3
  /-- The memory `MEM` (its form: log 17). -/
  mem : Memory
  /-- The display composed with the block, or none. -/
  display : Display
  /-- The last step left a `WaitForKey` cycle unfinished. -/
  held : Bool
  /-- The capabilities' answers. -/
  inputs : Inputs
  /-- The capability calls made so far, oldest first. -/
  calls : List Call
  deriving DecidableEq, Repr

/-- The machine right after creation: "Machine State is created once, zero-initialized" (10_state.md R32,
70_reset_and_hazards.md R240). The model's own fields: DESIGN CHOICE, logs 1 to 4. -/
def State.reset : State :=
  { v := Vector.replicate 16 0, i := 0, pc := 0, sp := 0, stack := Vector.replicate 16 0, dt := 0, st := 0, tick := 0,
    mem := [], display := .external, held := false,
    inputs := { random := [], polls := [], waits := [], hits := [], asked := 0 }, calls := [] }

/-- The faults that `step()` can report to the host (60_exceptions.md R200). -/
inductive Fault where
  /-- `InvalidKeyIndex(k)`: raised by SkipIfKeyPressed and SkipIfKeyNotPressed on a register value of 16 or more
  (60_exceptions.md R201). Safe: the spec's own fault. -/
  | invalidKeyIndex (k : Byte)
  /-- `StackOverflow`: raised by Call when all sixteen slots are in use (R202). Safe: the spec's own fault. -/
  | stackOverflow
  /-- `StackUnderflow`: raised by Return on an empty stack (R203). Safe: the spec's own fault. -/
  | stackUnderflow
  /-- `MemoryOutOfRange(addr)`: raised by the fetch, StoreRegistersToMemory, LoadRegistersFromMemory,
  ConvertToDecimalDigits and DrawSprite on the first address of 4096 or more (R204). Safe: the spec's own fault. -/
  | memoryOutOfRange (addr : Nat)
  /-- `UnimplementedOpcode`: raised by nobody; the name is kept as the spec keeps it (R205). Safe. -/
  | unimplementedOpcode
  deriving DecidableEq, Repr

/-- Why an instruction has no meaning. -/
inductive Refusal where
  /-- An instruction the model gives no meaning yet; raised by exec's arm of that instruction. Every instruction
  has its meaning, so nobody raises it (00_scope.md R7: "no word is refused"). Safe. -/
  | notModelled (mnemonic : String)
  deriving DecidableEq, Repr

/-- The answer of a meaning and of a step. -/
abbrev Result := Host.Outcome State Fault Refusal

/-- The answer of `load` (70_reset_and_hazards.md R241, R242). -/
inductive LoadResult where
  | loaded (s : State)
  /-- `LoadError::TooLarge`, with the program's length: an error of `load`, no outcome of a cycle (60_exceptions.md
  R206). -/
  | tooLarge (len : Nat)
  deriving DecidableEq, Repr

end Sys2Proof.Machine
end

