-- ==== Sys2Proof/Machine/Display.lean ====
section
/-! DEFINITION. The reference model of the display (60_exceptions.md R222): a collaborator, composed with the block
when `State.display` says so (log 4). -/

namespace Sys2Proof.Machine

/-- All pixels unset (60_exceptions.md R218, R222). -/
def Pixels.blank : Pixels := Vector.replicate 32 0

/-- `PIX[py mod 32][px mod 64]`. -/
def Pixels.lit (p : Pixels) (px py : Nat) : Bool :=
  (p[py % 32]'(Nat.mod_lt _ (by decide))).getLsbD (px % 64)

/-- `PIX[py mod 32][px mod 64] ^ 1`: the grid is toroidal (60_exceptions.md R222). -/
def Pixels.toggle (p : Pixels) (px py : Nat) : Pixels :=
  have h : py % 32 < 32 := Nat.mod_lt _ (by decide)
  p.set (py % 32) (p[py % 32] ^^^ BitVec.twoPow 64 (px % 64)) h

/-- The places `(px, py)`, not yet wrapped, of the 1 bits of one row: bit 7 is column 0, the leftmost
(60_exceptions.md R222). -/
def rowPlaces (px py : Nat) (row : Byte) : List (Nat × Nat) :=
  (([0, 1, 2, 3, 4, 5, 6, 7] : List Nat).filter (fun c => row.getLsbD (7 - c))).map (fun c => (px + c, py))

/-- The places of the 1 bits of a sprite, rows downward from `py`. -/
def spritePlaces (px py : Nat) : List Byte → List (Nat × Nat)
  | [] => []
  | row :: rest => rowPlaces px py row ++ spritePlaces px (py + 1) rest

/-- Plots the places in order; the flag says whether one of them was already set. -/
def plot : List (Nat × Nat) → Pixels → Bool → Pixels × Bool
  | [], p, hit => (p, hit)
  | c :: rest, p, hit => plot rest (p.toggle c.1 c.2) (hit || p.lit c.1 c.2)

/-- `draw(X, Y, rows)` of the reference display: the grid after and the collision (60_exceptions.md R222). -/
def Pixels.draw (p : Pixels) (x y : Byte) (rows : List Byte) : Pixels × Bool :=
  plot (spritePlaces x.toNat y.toNat rows) p false

end Sys2Proof.Machine
end

