-- ==== Sys2Proof/Machine/Operands.lean ====
section
/-! DEFINITION. Operand forms: register operands (10_state.md R20), the parameterised digit operand, the range
check and the byte reads and writes of register-indirect addressing through `I` (42_data_movement.md R151). -/

namespace Sys2Proof.Machine

/-- `V[r]`. -/
def State.readV (s : State) (r : Reg) : Byte := s.v[r.val]

/-- `V[r] <- b`. -/
def State.writeV (s : State) (r : Reg) (b : Byte) : State := { s with v := s.v.set r.val b r.isLt }

/-- `I <- w`. -/
def State.setI (s : State) (w : Word) : State := { s with i := w }

/-- `DT <- b`. -/
def State.setDt (s : State) (b : Byte) : State := { s with dt := b }

/-- `ST <- b`. -/
def State.setSt (s : State) (b : Byte) : State := { s with st := b }

/-- The operand of the digit-sprite and decimal-digit instructions (00_scope.md R4 `DIGIT_OPERAND`, 30_encoding.md
R88; log 6). -/
def digitOperandValue (d : DigitOperand) (x : Reg) (s : State) : Byte :=
  match d with
  | .registerValue => s.readV x
  | .registerIndex => BitVec.ofNat 8 x.val

/-- `MEM[a]`; 0 where nothing is listed (20_memory.md R63, R64). -/
def Memory.read : Memory → Nat → Byte
  | [], _ => 0
  | c :: rest, a => if c.1 = a then c.2 else Memory.read rest a

/-- `MEM[a] <- b` in the canonical form: a 0 is not listed (20_memory.md R63). -/
def Memory.write : Memory → Nat → Byte → Memory
  | [], a, b => if b = 0 then [] else [(a, b)]
  | c :: rest, a, b =>
    if a < c.1 then (if b = 0 then c :: rest else (a, b) :: c :: rest)
    else if a = c.1 then (if b = 0 then rest else (a, b) :: rest)
    else c :: Memory.write rest a b

/-- The bytes at `a`, `a+1`, ... (20_memory.md R54: lowest address first). -/
def Memory.readBytes (m : Memory) (a : Nat) : Nat → List Byte
  | 0 => []
  | n + 1 => m.read a :: Memory.readBytes m (a + 1) n

/-- Stores the bytes at `a`, `a+1`, ... in that order (20_memory.md R54). -/
def Memory.writeBytes (m : Memory) (a : Nat) : List Byte → Memory
  | [] => m
  | b :: rest => Memory.writeBytes (m.write a b) (a + 1) rest

/-- The first illegal address of the `n` addresses from `a` on, computed without wrap-around; none when all are legal
(20_memory.md R56, R57; 60_exceptions.md R204). -/
def firstIllegal (a n : Nat) : Option Nat :=
  if n = 0 ∨ a + n ≤ Config.memSize then none else some (max a Config.memSize)

/-- The address of the first byte a transfer moves: `I` as a number (20_memory.md R57). -/
def State.transferBase (s : State) : Nat := s.i.toNat

/-- The registers `V[0]` to `V[x]`, lowest first (20_memory.md R54). -/
def regsUpTo (x : Reg) : List Reg :=
  ([0, 1, 2, 3, 4, 5, 6, 7, 8, 9, 10, 11, 12, 13, 14, 15] : List Reg).filter (fun r => r ≤ x)

/-- The general registers an instruction may write: the columns `V[x]` and `VF` of the access matrix (10_state.md
R33). -/
def destinationRegs : Instr → List Reg
  | .clearScreen => []
  | .ret => []
  | .jumpAbsolute _ => []
  | .call _ => []
  | .skipIfEqualImmediate _ _ => []
  | .skipIfNotEqualImmediate _ _ => []
  | .skipIfRegistersEqual _ _ => []
  | .setImmediate x _ => [x]
  | .addImmediate x _ => [x]
  | .copyRegister x _ => [x]
  | .bitOr x _ => [x]
  | .bitAnd x _ => [x]
  | .bitXor x _ => [x]
  | .add x _ => [x, flagReg]
  | .subtract x _ => [x, flagReg]
  | .shiftRight x => [x, flagReg]
  | .subtractReversed x _ => [x, flagReg]
  | .shiftLeft x => [x, flagReg]
  | .skipIfRegistersNotEqual _ _ => []
  | .setIndex _ => []
  | .jumpIndexed _ => []
  | .generateRandomByte x _ => [x]
  | .drawSprite _ _ _ => [flagReg]
  | .skipIfKeyPressed _ => []
  | .skipIfKeyNotPressed _ => []
  | .loadDelayTimer x => [x]
  | .waitForKey x => [x]
  | .storeDelayTimer _ => []
  | .storeSoundTimer _ => []
  | .addToIndex _ => []
  | .setIndexToDigitSprite _ => []
  | .convertToDecimalDigits _ => []
  | .storeRegistersToMemory _ => []
  | .loadRegistersFromMemory x => regsUpTo x
  | .unknown _ => []

/-- The three decimal digits of a byte, hundreds first (42_data_movement.md R150). -/
def decimalDigits (b : Byte) : List Byte := [b / 100, (b / 10) % 10, b % 10]

end Sys2Proof.Machine
end

