-- ==== Sys2Proof/Machine/Flags.lean ====
section
/-! DEFINITION. Flag computations and the two orders of the result and flag writes (43_arithmetic.md R161, R165 to
R169, R172). -/

namespace Sys2Proof.Machine

/-- A flag as a register value, 1 or 0. -/
def flagByte (b : Bool) : Byte := if b then 1 else 0

/-- `sum9`, the 9-bit intermediate sum of Add (43_arithmetic.md R165). -/
def sum9 (a b : Byte) : BitVec 9 := a.setWidth 9 + b.setWidth 9

/-- The flag of a subtraction `a - b`: strictly greater in the reference convention (43_arithmetic.md R166, R172). -/
def subtractFlag (c : FlagConvention) (a b : Byte) : Byte :=
  match c with
  | .reference => flagByte (b < a)
  | .conventional => flagByte (b ≤ a)

/-- The flag of ShiftRight: the bit shifted out (43_arithmetic.md R168). -/
def shiftRightFlag (a : Byte) : Byte := a &&& 1

/-- The flag of ShiftLeft: `a & 0x80`, 0 or 128, in the reference convention (43_arithmetic.md R169, R172). -/
def shiftLeftFlag (c : FlagConvention) (a : Byte) : Byte :=
  match c with
  | .reference => a &&& 0x80
  | .conventional => flagByte (a.getLsbD 7)

/-- First write the result to `V[x]`, second the flag to `V[15]` (Add; 43_arithmetic.md R161, R165). -/
def State.writeResultThenFlag (s : State) (x : Reg) (result flag : Byte) : State :=
  (s.writeV x result).writeV flagReg flag

/-- First write the flag to `V[15]`, second the result to `V[x]` (the subtracts and shifts; 43_arithmetic.md R161,
R166 to R169). -/
def State.writeFlagThenResult (s : State) (x : Reg) (flag result : Byte) : State :=
  (s.writeV flagReg flag).writeV x result

end Sys2Proof.Machine
end

