-- ==== Sys2Proof/Machine/Ops.lean ====
section
/-! DEFINITION. The shared operations of the meanings: the end of a meaning (40_cycle.md R104), faults
(60_exceptions.md R210), the fetch (40_cycle.md R101), the capability calls (60_exceptions.md R218 to R221), the
timer step (60_exceptions.md R214) and `load` (70_reset_and_hazards.md R241). -/

namespace Sys2Proof.Machine

/-! ### Faults -/

/-- Taking a fault: the cycle ends with it and nothing is written; `step()` reports it to the host, which still has
the state from before the cycle (60_exceptions.md R210, 40_cycle.md R106). DEDUCED: log 11. -/
def raiseFault (f : Fault) (_s : State) : Result := .fault f

/-- "Log and skip", the one continuation after a fault that the spec writes out: the host's own write
`PC <- PC +_16 2` (60_exceptions.md R211). DEDUCED: log 15. The machine has no return from a fault. -/
def State.hostSkip (s : State) : State := { s with pc := s.pc + 2 }

/-- The faults' numbers (60_exceptions.md R200). -/
def faultCode : Fault → Nat
  | .invalidKeyIndex _ => 1
  | .stackOverflow => 2
  | .stackUnderflow => 3
  | .memoryOutOfRange _ => 4
  | .unimplementedOpcode => 5

/-- The number of `load`'s error, none when it loaded (60_exceptions.md R200, R206). -/
def loadErrorCode : LoadResult → Option Nat
  | .loaded _ => none
  | .tooLarge _ => some 6

/-- The number of the batch decoder's error, none when it decoded (60_exceptions.md R200, R207). -/
def batchErrorCode : BatchResult → Option Nat
  | .sequence _ => none
  | .bufferLength _ => some 7

/-- Does `k` when the `n` addresses from `a` on are legal, else faults with the first illegal one, before any byte
is moved (20_memory.md R57). -/
def checkRange (a n : Nat) (s : State) (k : Result) : Result :=
  match firstIllegal a n with
  | some bad => raiseFault (.memoryOutOfRange bad) s
  | none => k

/-! ### The program counter -/

/-- The end of a meaning: the new `PC`, and the cycle is not held (40_cycle.md R104). -/
def State.finishAt (s : State) (target : Word) : State := { s with pc := target, held := false }

/-- `PC <- PC +_16 2`. -/
def State.advance (s : State) : State := s.finishAt (s.pc + 2)

/-- `PC <- c ? PC +_16 4 : PC +_16 2`. -/
def State.skipIf (s : State) (c : Bool) : State := s.finishAt (if c then s.pc + 4 else s.pc + 2)

/-- The `PC` after a block store or load (00_scope.md R4 `BLOCK_XFER_ADVANCES_PC`; log 7). -/
def State.endTransfer (s : State) (advances : Bool) : State := if advances then s.advance else s.finishAt s.pc

/-- A 12-bit address as a 16-bit value (30_encoding.md R73). -/
def zextAddr (a : Addr) : Word := a.setWidth 16

/-- A byte as a 16-bit value. -/
def zextByte (b : Byte) : Word := b.setWidth 16

/-! ### The return stack -/

/-- Whether a slot is free: `SP` is not 16 (41_control_flow.md R121). -/
def State.stackFull (s : State) : Bool := s.sp.val == 16

/-- `STACK[SP] <- ret; SP <- SP + 1`; changes nothing when no slot is free (Call has then faulted). -/
def State.push (s : State) (ret : Word) : State :=
  if h : s.sp.val < 16 then
    { s with stack := s.stack.set s.sp.val ret h, sp := ⟨s.sp.val + 1, by omega⟩ }
  else s

/-- `SP <- SP - 1`. -/
def State.popped (s : State) : State := { s with sp := ⟨s.sp.val - 1, by omega⟩ }

/-- `STACK[SP - 1]`, the slot Return reads; slot 0 when the stack is empty (Return has then faulted). -/
def State.topSlot (s : State) : Word := s.stack[s.sp.val - 1]'(by have := s.sp.isLt; omega)

/-! ### Capability calls -/

/-- Records a call (40_cycle.md R111). -/
def State.callOut (s : State) (c : Call) : State := { s with calls := s.calls ++ [c] }

/-- What `random.next_byte()` answers now (44_io.md R181; log 2). -/
def State.randomAnswer (s : State) : Byte :=
  match s.inputs.random with
  | b :: _ => b
  | [] => Config.freeByte s.inputs.asked

/-- The call of `random.next_byte()` made and its answer taken. -/
def State.askRandom (s : State) : State :=
  { s.callOut .nextByte with inputs := { s.inputs with random := s.inputs.random.tail, asked := s.inputs.asked + 1 } }

/-- What `input.poll()` answers now (44_io.md R183; log 2). -/
def State.pollAnswer (s : State) : Keys :=
  match s.inputs.polls with
  | k :: _ => k
  | [] => Config.freeKeys s.inputs.asked

/-- The call of `input.poll()` made and its answer taken. -/
def State.askPoll (s : State) : State :=
  { s.callOut .poll with inputs := { s.inputs with polls := s.inputs.polls.tail, asked := s.inputs.asked + 1 } }

/-- What `input.wait_for_key()` has answered now: a key, or nothing yet (44_io.md R185; log 2). -/
def State.waitAnswer (s : State) : Option Key :=
  match s.inputs.waits with
  | k :: _ => k
  | [] => Config.freeWait s.inputs.asked

/-- The input capability looked at once: only the list of answers moves on. -/
def State.tookWait (s : State) : State :=
  { s with inputs := { s.inputs with waits := s.inputs.waits.tail, asked := s.inputs.asked + 1 } }

/-- The held outcome: no state of the block changes (40_cycle.md R107; log 1). -/
def State.hold (s : State) : State := { s.tookWait with held := true }

/-- What `display.draw(x, y, rows)` answers now: the reference display's collision when it is composed with the
block, else the host's answer (44_io.md R182, 60_exceptions.md R218, R222; logs 2, 4). -/
def State.drawAnswer (s : State) (x y : Byte) (rows : List Byte) : Bool :=
  match s.display with
  | .reference pix => (pix.draw x y rows).2
  | .external =>
    match s.inputs.hits with
    | h :: _ => h
    | [] => Config.freeHit s.inputs.asked

/-- The call `display.draw(x, y, rows)` made and its answer taken. -/
def State.askDraw (s : State) (x y : Byte) (rows : List Byte) : State :=
  match s.display with
  | .reference pix => { s.callOut (.draw x y rows) with display := .reference (pix.draw x y rows).1 }
  | .external =>
    { s.callOut (.draw x y rows) with inputs := { s.inputs with hits := s.inputs.hits.tail, asked := s.inputs.asked + 1 } }

/-- The call `display.clear()` (60_exceptions.md R218). -/
def State.clearDisplay (s : State) : State :=
  match s.display with
  | .reference _ => { s.callOut .clear with display := .reference Pixels.blank }
  | .external => s.callOut .clear

/-! ### Block transfers -/

/-- `V[r] <- MEM[a + r]` for the registers of a list (42_data_movement.md R149). -/
def loadRegs (m : Memory) (a : Nat) : List Reg → State → State
  | [], s => s
  | r :: rest, s => loadRegs m a rest (s.writeV r (m.read (a + r.val)))

/-- Stores the bytes at `I`, `I+1`, ... -/
def State.storeBytes (s : State) (bytes : List Byte) : State :=
  { s with mem := s.mem.writeBytes s.transferBase bytes }

/-! ### The cycle -/

/-- The word at `PC`, big-endian (20_memory.md R53, 40_cycle.md R101). -/
def State.fetchWord (s : State) : Word := wordOfBytes (s.mem.read s.pc.toNat) (s.mem.read (s.pc.toNat + 1))

/-- The instruction at `PC` (40_cycle.md R102). -/
def State.fetched (s : State) : Instr := decode s.fetchWord

/-- `sat_sub8(a, k)`: "the timer is clamped to 0 instead" of wrapping (60_exceptions.md R215). -/
def satSub8 (a k : Byte) : Byte :=
  let r := a - k
  if a < r then 0 else r

/-- A timer firing: both timers fall, and `tone_end` is signalled when `ST` falls from nonzero to 0
(60_exceptions.md R214, R216). -/
def State.fireTimers (s : State) : State :=
  let st' := satSub8 s.st Config.timerStep
  let s' := { s with dt := satSub8 s.dt Config.timerStep, st := st' }
  if s.st ≠ 0 ∧ st' = 0 then s'.callOut .toneEnd else s'

/-- The timer step that ends every completed cycle (60_exceptions.md R214). -/
def State.timerStep (s : State) : State :=
  let s' := { s with tick := s.tick + 1 }
  if s'.tick = 0 then s'.fireTimers else s'

/-- Step 5 of the cycle: the timers after a completed cycle, none after a held one; a fault passes
(40_cycle.md R105). -/
def endCycle : Result → Result
  | .next t => .next (if t.held then t else t.timerStep)
  | .fault f => .fault f
  | .refused r => .refused r

/-! ### load -/

/-- `load(program)` (70_reset_and_hazards.md R241 to R243). -/
def State.load (s : State) (program : List Byte) : LoadResult :=
  if Config.maxProgram < program.length then .tooLarge program.length
  else .loaded { s with pc := 0x0200, mem := (s.mem.writeBytes 0 Config.font).writeBytes Config.loadBase program }

end Sys2Proof.Machine
end

