-- ==== Sys2Proof/Machine/Arithmetic.lean ====
section
/-! DEFINITION. Arithmetic and bitwise instructions, the ALU (43_arithmetic.md). Operands are latched before any
write (R161). -/

namespace Sys2Proof.Machine

/-- Or (43_arithmetic.md R162). -/
def execOr (x y : Reg) (s : State) : Result := .next (s.writeV x (s.readV x ||| s.readV y)).advance

/-- And (43_arithmetic.md R163). -/
def execAnd (x y : Reg) (s : State) : Result := .next (s.writeV x (s.readV x &&& s.readV y)).advance

/-- Xor (43_arithmetic.md R164). -/
def execXor (x y : Reg) (s : State) : Result := .next (s.writeV x (s.readV x ^^^ s.readV y)).advance

/-- Add: the result, then the carry (43_arithmetic.md R165). -/
def execAdd (x y : Reg) (s : State) : Result :=
  let sum := sum9 (s.readV x) (s.readV y)
  .next (s.writeResultThenFlag x (sum.extractLsb' 0 8) (flagByte (sum.getLsbD 8))).advance

/-- Subtract: the flag, then the result (43_arithmetic.md R166; log 5). -/
def execSubtract (x y : Reg) (s : State) : Result :=
  let a := s.readV x
  let b := s.readV y
  .next (s.writeFlagThenResult x (subtractFlag Config.flagConvention a b) (a - b)).advance

/-- SubtractReversed: the flag, then the result (43_arithmetic.md R167; log 5). -/
def execSubtractReversed (x y : Reg) (s : State) : Result :=
  let a := s.readV x
  let b := s.readV y
  .next (s.writeFlagThenResult x (subtractFlag Config.flagConvention b a) (b - a)).advance

/-- ShiftRight: the flag, then the result (43_arithmetic.md R168). -/
def execShiftRight (x : Reg) (s : State) : Result :=
  let a := s.readV x
  .next (s.writeFlagThenResult x (shiftRightFlag a) (a >>> 1)).advance

/-- ShiftLeft: the flag, then the result (43_arithmetic.md R169; log 5). -/
def execShiftLeft (x : Reg) (s : State) : Result :=
  let a := s.readV x
  .next (s.writeFlagThenResult x (shiftLeftFlag Config.flagConvention a) (a <<< 1)).advance

/-- AddImmediate: no flag (43_arithmetic.md R170). -/
def execAddImmediate (x : Reg) (kk : Byte) (s : State) : Result := .next (s.writeV x (s.readV x + kk)).advance

end Sys2Proof.Machine
end

