-- ==== Sys2Proof/Machine/ControlFlow.lean ====
section
/-! DEFINITION. Control flow (41_control_flow.md) and UNKNOWN (40_cycle.md R110). -/

namespace Sys2Proof.Machine

/-- JumpAbsolute (41_control_flow.md R120). -/
def execJumpAbsolute (addr : Addr) (s : State) : Result := .next (s.finishAt (zextAddr addr))

/-- Call (41_control_flow.md R121). -/
def execCall (addr : Addr) (s : State) : Result :=
  if s.stackFull then raiseFault .stackOverflow s
  else .next ((s.push (s.pc + 2)).finishAt (zextAddr addr))

/-- Return (41_control_flow.md R122). -/
def execReturn (s : State) : Result :=
  if s.sp = 0 then raiseFault .stackUnderflow s
  else .next (s.popped.finishAt s.topSlot)

/-- SkipIfEqualImmediate (41_control_flow.md R123). -/
def execSkipIfEqualImmediate (x : Reg) (kk : Byte) (s : State) : Result := .next (s.skipIf (s.readV x == kk))

/-- SkipIfNotEqualImmediate (41_control_flow.md R124). -/
def execSkipIfNotEqualImmediate (x : Reg) (kk : Byte) (s : State) : Result := .next (s.skipIf (s.readV x != kk))

/-- SkipIfRegistersEqual (41_control_flow.md R125). -/
def execSkipIfRegistersEqual (x y : Reg) (s : State) : Result := .next (s.skipIf (s.readV x == s.readV y))

/-- SkipIfRegistersNotEqual (41_control_flow.md R126). -/
def execSkipIfRegistersNotEqual (x y : Reg) (s : State) : Result := .next (s.skipIf (s.readV x != s.readV y))

/-- JumpIndexed (41_control_flow.md R127): no masking of the sum. -/
def execJumpIndexed (addr : Addr) (s : State) : Result := .next (s.finishAt (zextByte (s.readV 0) + zextAddr addr))

/-- UNKNOWN: "a no-op that still advances the program counter by 2" (40_cycle.md R110). -/
def execUnknown (_raw : Word) (s : State) : Result := .next s.advance

end Sys2Proof.Machine
end

