-- ==== Sys2Proof/Machine/DataMovement.lean ====
section
/-! DEFINITION. Data movement (42_data_movement.md). -/

namespace Sys2Proof.Machine

/-- SetImmediate (42_data_movement.md R140). -/
def execSetImmediate (x : Reg) (kk : Byte) (s : State) : Result := .next (s.writeV x kk).advance

/-- CopyRegister (42_data_movement.md R141). -/
def execCopyRegister (x y : Reg) (s : State) : Result := .next (s.writeV x (s.readV y)).advance

/-- SetIndex (42_data_movement.md R142). -/
def execSetIndex (addr : Addr) (s : State) : Result := .next (s.setI (zextAddr addr)).advance

/-- AddToIndex: modulo 2^16, no flag (42_data_movement.md R143). -/
def execAddToIndex (x : Reg) (s : State) : Result := .next (s.setI (s.i + zextByte (s.readV x))).advance

/-- LoadDelayTimer: `DT` before this cycle's timer step (42_data_movement.md R144). -/
def execLoadDelayTimer (x : Reg) (s : State) : Result := .next (s.writeV x s.dt).advance

/-- StoreDelayTimer (42_data_movement.md R145). -/
def execStoreDelayTimer (x : Reg) (s : State) : Result := .next (s.setDt (s.readV x)).advance

/-- StoreSoundTimer: `tone_start` is signalled before the write, whatever the value (42_data_movement.md R146). -/
def execStoreSoundTimer (x : Reg) (s : State) : Result := .next ((s.callOut .toneStart).setSt (s.readV x)).advance

/-- SetIndexToDigitSprite (42_data_movement.md R147; log 6). -/
def execSetIndexToDigitSprite (x : Reg) (s : State) : Result :=
  .next (s.setI (zextByte (digitOperandValue Config.digitOperand x s) * BitVec.ofNat 16 Config.glyphStride)).advance

/-- StoreRegistersToMemory (42_data_movement.md R148). -/
def execStoreRegistersToMemory (x : Reg) (s : State) : Result :=
  checkRange s.transferBase (x.val + 1) s
    (.next ((s.storeBytes ((regsUpTo x).map s.readV)).endTransfer Config.blockXferAdvancesPc))

/-- LoadRegistersFromMemory (42_data_movement.md R149). -/
def execLoadRegistersFromMemory (x : Reg) (s : State) : Result :=
  checkRange s.transferBase (x.val + 1) s
    (.next ((loadRegs s.mem s.transferBase (regsUpTo x) s).endTransfer Config.blockXferAdvancesPc))

/-- ConvertToDecimalDigits (42_data_movement.md R150; log 6). -/
def execConvertToDecimalDigits (x : Reg) (s : State) : Result :=
  checkRange s.transferBase 3 s
    (.next (s.storeBytes (decimalDigits (digitOperandValue Config.digitOperand x s))).advance)

end Sys2Proof.Machine
end

