-- ==== Sys2Proof/Machine/InputOutput.lean ====
section
/-! DEFINITION. Input/output instructions (44_io.md). -/

namespace Sys2Proof.Machine

/-- ClearScreen (44_io.md R180). -/
def execClearScreen (s : State) : Result := .next s.clearDisplay.advance

/-- GenerateRandomByte: one draw, masked (44_io.md R181). -/
def execGenerateRandomByte (x : Reg) (mask : Byte) (s : State) : Result :=
  .next (s.askRandom.writeV x (s.randomAnswer &&& mask)).advance

/-- DrawSprite: coordinates latched, every address checked, one `draw` call, the collision to `VF` (44_io.md R182). -/
def execDrawSprite (x y : Reg) (height : Fin 16) (s : State) : Result :=
  let cx := s.readV x
  let cy := s.readV y
  let rows := s.mem.readBytes s.transferBase height.val
  checkRange s.transferBase height.val s
    (.next ((s.askDraw cx cy rows).writeV flagReg (flagByte (s.drawAnswer cx cy rows))).advance)

/-- The key a key skip names: the register's value, none when it is 16 or more (44_io.md R183). -/
def keyNamed (k : Byte) : Option Key := if h : k.toNat < 16 then some ⟨k.toNat, h⟩ else none

/-- SkipIfKeyPressed: the range check comes before the poll (44_io.md R183). -/
def execSkipIfKeyPressed (x : Reg) (s : State) : Result :=
  match keyNamed (s.readV x) with
  | none => raiseFault (.invalidKeyIndex (s.readV x)) s
  | some k => .next (s.askPoll.skipIf (s.pollAnswer[k.val]))

/-- SkipIfKeyNotPressed (44_io.md R184). -/
def execSkipIfKeyNotPressed (x : Reg) (s : State) : Result :=
  match keyNamed (s.readV x) with
  | none => raiseFault (.invalidKeyIndex (s.readV x)) s
  | some k => .next (s.askPoll.skipIf (!s.pollAnswer[k.val]))

/-- The state after one look at the input capability: the cycle completes with the key's index, or is held
(44_io.md R185; log 1). -/
def waitOutcome (x : Reg) (s : State) : State :=
  match s.waitAnswer with
  | some k => ((s.tookWait.callOut .waitForKey).writeV x (BitVec.ofNat 8 k.val)).advance
  | none => s.hold

/-- WaitForKey (44_io.md R185). -/
def execWaitForKey (x : Reg) (s : State) : Result := .next (waitOutcome x s)

end Sys2Proof.Machine
end

