-- ==== Sys2Proof/Machine/Dispatch.lean ====
section
/-! DEFINITION. One arm per instruction: execution depends on the word only through the tag and its operand fields
(40_cycle.md R102). -/

namespace Sys2Proof.Machine

def exec (i : Instr) (s : State) : Host.Outcome State Fault Refusal :=
  match i with
  | .clearScreen => Sys2Proof.Machine.execClearScreen s
  | .ret => Sys2Proof.Machine.execReturn s
  | .jumpAbsolute addr => Sys2Proof.Machine.execJumpAbsolute addr s
  | .call addr => Sys2Proof.Machine.execCall addr s
  | .skipIfEqualImmediate x kk => Sys2Proof.Machine.execSkipIfEqualImmediate x kk s
  | .skipIfNotEqualImmediate x kk => Sys2Proof.Machine.execSkipIfNotEqualImmediate x kk s
  | .skipIfRegistersEqual x y => Sys2Proof.Machine.execSkipIfRegistersEqual x y s
  | .setImmediate x kk => Sys2Proof.Machine.execSetImmediate x kk s
  | .addImmediate x kk => Sys2Proof.Machine.execAddImmediate x kk s
  | .copyRegister x y => Sys2Proof.Machine.execCopyRegister x y s
  | .bitOr x y => Sys2Proof.Machine.execOr x y s
  | .bitAnd x y => Sys2Proof.Machine.execAnd x y s
  | .bitXor x y => Sys2Proof.Machine.execXor x y s
  | .add x y => Sys2Proof.Machine.execAdd x y s
  | .subtract x y => Sys2Proof.Machine.execSubtract x y s
  | .shiftRight x => Sys2Proof.Machine.execShiftRight x s
  | .subtractReversed x y => Sys2Proof.Machine.execSubtractReversed x y s
  | .shiftLeft x => Sys2Proof.Machine.execShiftLeft x s
  | .skipIfRegistersNotEqual x y => Sys2Proof.Machine.execSkipIfRegistersNotEqual x y s
  | .setIndex addr => Sys2Proof.Machine.execSetIndex addr s
  | .jumpIndexed addr => Sys2Proof.Machine.execJumpIndexed addr s
  | .generateRandomByte x mask => Sys2Proof.Machine.execGenerateRandomByte x mask s
  | .drawSprite x y height => Sys2Proof.Machine.execDrawSprite x y height s
  | .skipIfKeyPressed x => Sys2Proof.Machine.execSkipIfKeyPressed x s
  | .skipIfKeyNotPressed x => Sys2Proof.Machine.execSkipIfKeyNotPressed x s
  | .loadDelayTimer x => Sys2Proof.Machine.execLoadDelayTimer x s
  | .waitForKey x => Sys2Proof.Machine.execWaitForKey x s
  | .storeDelayTimer x => Sys2Proof.Machine.execStoreDelayTimer x s
  | .storeSoundTimer x => Sys2Proof.Machine.execStoreSoundTimer x s
  | .addToIndex x => Sys2Proof.Machine.execAddToIndex x s
  | .setIndexToDigitSprite x => Sys2Proof.Machine.execSetIndexToDigitSprite x s
  | .convertToDecimalDigits x => Sys2Proof.Machine.execConvertToDecimalDigits x s
  | .storeRegistersToMemory x => Sys2Proof.Machine.execStoreRegistersToMemory x s
  | .loadRegistersFromMemory x => Sys2Proof.Machine.execLoadRegistersFromMemory x s
  | .unknown raw => Sys2Proof.Machine.execUnknown raw s

end Sys2Proof.Machine
end

