-- ==== Sys2Proof/Machine/Step.lean ====
section
/-! DEFINITION. One cycle: fetch, decode, execute with the program counter, timers (40_cycle.md R100). -/

namespace Sys2Proof.Machine

/-- `step()`: one cycle (40_cycle.md R100). A fetch at an illegal address faults before decoding (R101). -/
def step (s : State) : Host.Outcome State Fault Refusal :=
  checkRange s.pc.toNat 2 s (endCycle (exec s.fetched s))

/-- Where the next fetch reads: `PC`, or the load address when no instruction can be fetched at `PC`
(DESIGN CHOICE, safe: log 16). -/
def State.fetchPlace (s : State) : Word := if s.pc.toNat + 2 ≤ Config.memSize then s.pc else 0x0200

/-- The state with the word `w` placed, big-endian, where `step` fetches its next instruction (log 16); every
instruction has 16 bits. -/
def State.withFetchWord (s : State) (_nbits w : Nat) : State :=
  { s with pc := s.fetchPlace, mem := s.mem.writeBytes s.fetchPlace.toNat (bytesOfWord (BitVec.ofNat 16 w)) }

end Sys2Proof.Machine
end

