-- ==== Sys2Proof/Safety.lean ====
section
/-! DEFINITION. The terms claims are stated in: safe runs, the settled state, the invariant of a run, and what an
instruction leaves unchanged. -/

namespace Sys2Proof.Machine

/-- The step from this state completes or is held: no fault, no refusal (00_scope.md R7). -/
def State.canStep (s : State) : Prop := ∃ t, step s = .next t

/-- Every run from this state goes on for ever without a fault or a refusal. -/
def State.safe (s : State) : Prop := ∀ k, ∃ t, Host.Core.run Sys2Proof.core k s = .next t

/-- `PC` addresses a `JumpAbsolute` to its own address (40_cycle.md R108). -/
def State.settled (s : State) : Prop :=
  s.pc.toNat + 2 ≤ Config.memSize ∧ ∃ addr, s.fetched = .jumpAbsolute addr ∧ zextAddr addr = s.pc

/-- What holds along every run: the memory is canonical; every return slot holds at most 0x1000, the largest value a
`Call` that could be fetched pushes (41_control_flow.md R122); `PC` is at most 0x10FE, the largest value
`JumpIndexed` makes (R127); and a held cycle is a `WaitForKey` (40_cycle.md R107). -/
structure State.Inv (s : State) : Prop where
  memory : s.mem.wf
  slots : ∀ k : Fin 16, (s.stack[k.val]).toNat ≤ 0x1000
  pcBound : s.pc.toNat ≤ 0x10FE
  heldWaits : s.held = true → ∃ x, s.fetched = .waitForKey x

/-- Every general register outside `ds` is the same. -/
def sameRegs (ds : List Reg) (s t : State) : Prop := ∀ r, r ∉ ds → t.readV r = s.readV r

/-- The return stack is the same. -/
def sameStack (s t : State) : Prop := t.sp = s.sp ∧ t.stack = s.stack

/-- The timers and the prescaler are the same. -/
def sameTimers (s t : State) : Prop := t.dt = s.dt ∧ t.st = s.st ∧ t.tick = s.tick

/-- Every byte of memory reads the same. -/
def sameMemory (s t : State) : Prop := ∀ a, t.mem.read a = s.mem.read a

/-- No capability was called and none answered. -/
def sameOutside (s t : State) : Prop := t.calls = s.calls ∧ t.inputs = s.inputs ∧ t.display = s.display

/-- Every state element of the block is the same (10_state.md R20 to R29), and so are the display and the calls. -/
def sameBlock (s t : State) : Prop :=
  sameRegs [] s t ∧ t.i = s.i ∧ t.pc = s.pc ∧ sameStack s t ∧ sameTimers s t ∧ sameMemory s t ∧
    t.display = s.display ∧ t.calls = s.calls

/-- Only `I` and `PC` may differ. -/
def onlyIndex (s t : State) : Prop :=
  sameRegs [] s t ∧ sameStack s t ∧ sameTimers s t ∧ sameMemory s t ∧ sameOutside s t

/-- Only the bytes stored to and `PC` may differ: every byte outside the `n` bytes from `a` on reads the same. -/
def onlyBytes (a n : Nat) (s t : State) : Prop :=
  (∀ b, b < a ∨ a + n ≤ b → t.mem.read b = s.mem.read b) ∧
    sameRegs [] s t ∧ t.i = s.i ∧ sameStack s t ∧ sameTimers s t ∧ sameOutside s t

/-- Only the registers `ds` and `PC` may differ. -/
def onlyRegs (ds : List Reg) (s t : State) : Prop :=
  sameRegs ds s t ∧ t.i = s.i ∧ sameStack s t ∧ sameTimers s t ∧ sameMemory s t ∧ sameOutside s t

/-- The cycle of `i` completes in `t` and goes on at `pc`: the meaning answers a next state, not a held one. -/
def completesAt (i : Instr) (s t : State) (pc : Nat) : Prop :=
  exec i s = .next t ∧ t.held = false ∧ t.pc.toNat = pc % 65536

end Sys2Proof.Machine
end

