-- ==== Sys2Proof/Certificates/Slice0/Obligations.lean ====
section
/-! DEFINITION. The statements for the provers. Each docstring names the rules of spec/ it rests on; "spec decision
D<n>" marks what the spec itself calls its own choice (92_eei_decisions.md), and "log <n>" what this model chose. -/

open Sys2Proof Sys2Proof.Machine

/-! ### Decoder and encoder -/

/-- Decoding the word of a well-formed instruction gives it back, every operand at every value (30_encoding.md R71,
R77 to R84; the patterns are spec decision D1). -/
def Obligations.DecodeOfEncode : Prop :=
  ∀ i : Instr, i.wellFormed = true → decode (encode i) = i

/-- Encoding what a word decodes to gives the word back, but for the ignored `y` field of the two shifts, which the
encoder writes 0 (30_encoding.md R71, R81; log 9). -/
def Obligations.EncodeOfDecode : Prop :=
  ∀ w : Word,
    (tagOf (decode w) ≠ 15 → tagOf (decode w) ≠ 17 → encode (decode w) = w) ∧
    (tagOf (decode w) = 15 ∨ tagOf (decode w) = 17 → encode (decode w) = w &&& 0xFF0F)

/-- The family dispatch and the opcode table are the same decoder: a word that fits a row has the row's tag, and a
word that fits none is UNKNOWN (30_encoding.md R75 to R84; spec decisions D1, D2). -/
def Obligations.DispatchAgreesWithOpcodeTable : Prop :=
  ∀ w : Word,
    (∀ r ∈ opcodeRows, r.fits w = true → tagOf (decode w) = r.tag) ∧
    ((∀ r ∈ opcodeRows, r.fits w = false) → decode w = .unknown w)

/-- UNKNOWN carries the whole word, exactly for the words of the family table of 30_encoding.md R85 (R76). -/
def Obligations.UnknownExactly : Prop :=
  ∀ w w' : Word, decode w = .unknown w' ↔ w' = w ∧ unknownWord w = true

/-- No word fits two rows of the opcode map (30_encoding.md R75, the spec's own inference). -/
def Obligations.OpcodeRowsDisjoint : Prop :=
  ∀ r ∈ opcodeRows, ∀ r' ∈ opcodeRows, ∀ w : Word, r.fits w = true → r'.fits w = true → r = r'

/-- Words written out bit by bit from the encodings decode to what they stand for (30_encoding.md R77 to R84). -/
def Obligations.SampleWordsDecode : Prop :=
  decode 0b0001001000110100 = .jumpAbsolute 0x234 ∧ decode 0b0110101000000111 = .setImmediate 10 7 ∧
  decode 0b1000000000010100 = .add 0 1 ∧ decode 0b0000000011100000 = .clearScreen ∧
  decode 0b1101000100100101 = .drawSprite 1 2 5 ∧ decode 0b1111001001010101 = .storeRegistersToMemory 2 ∧
  decode 0b0101000100100001 = .unknown 0x5121

/-- The batch decoder fails exactly on an empty or odd buffer, and otherwise answers the decoding of every
big-endian pair in order (30_encoding.md R89; only the error's name is spec decision D28). -/
def Obligations.BatchDecoderPairs : Prop :=
  ∀ b : List Byte,
    (b.length = 0 ∨ b.length % 2 = 1 → decodeBuffer b = .bufferLength b.length) ∧
    (b.length ≠ 0 → b.length % 2 = 0 → ∃ is, decodeBuffer b = .sequence is ∧ is.length = b.length / 2 ∧
      ∀ k, k < b.length / 2 → is[k]? = some (decode (wordOfBytes (b.getD (2 * k) 0) (b.getD (2 * k + 1) 0))))

/-- The decoder's outputs: a tag of 0 to 34, every one of them reached, 34 exactly for UNKNOWN; the field slices
overlap as the word's nibbles do (30_encoding.md R71, R87, R93; spec decisions D24, D25). -/
def Obligations.DecoderBlockOutputs : Prop :=
  (∀ w : Word,
    (decoderOutputs w).tag.toNat ≤ 34 ∧ ((decoderOutputs w).tag = 34 ↔ unknownWord w = true) ∧
    (decoderOutputs w).nnn.toNat = (decoderOutputs w).x.toNat * 256 + (decoderOutputs w).kk.toNat ∧
    (decoderOutputs w).kk.toNat = (decoderOutputs w).y.toNat * 16 + (decoderOutputs w).n.toNat ∧
    (decoderOutputs w).nnn.toNat = (decoderOutputs w).raw.toNat % 4096 ∧ (decoderOutputs w).raw = w) ∧
  ∀ k : Nat, k ≤ 34 → ∃ w : Word, (decoderOutputs w).tag.toNat = k

/-! ### The cycle -/

/-- A step runs the decoded instruction: when two bytes can be fetched at `PC` and their word decodes to `i`, the
step is `exec i`, then the timer step if the cycle completed; a fault of `exec i` is the step's (40_cycle.md R100,
R101, R105; spec decisions D14, D31). -/
def Obligations.StepRunsDecodedInstruction : Prop :=
  ∀ (s : State) (i : Instr), s.pc.toNat + 1 ≤ 0x0FFF →
    decode (wordOfBytes (s.mem.read s.pc.toNat) (s.mem.read (s.pc.toNat + 1))) = i →
    (∀ t, exec i s = .next t → t.held = false → step s = .next t.timerStep) ∧
    (∀ t, exec i s = .next t → t.held = true → step s = .next t) ∧
    (∀ f, exec i s = .fault f → step s = .fault f)

/-- A fetch at an illegal address faults, with the first illegal address (40_cycle.md R101; spec decision D11). -/
def Obligations.FetchOutOfRangeFaults : Prop :=
  ∀ s : State,
    (0x0FFF < s.pc.toNat → step s = .fault (.memoryOutOfRange s.pc.toNat)) ∧
    (s.pc.toNat = 0x0FFF → step s = .fault (.memoryOutOfRange 0x1000))

/-- Every step answers a next state or one of the faults numbered 1 to 4: no word is refused, and
UnimplementedOpcode is never raised (00_scope.md R7; 60_exceptions.md R200, R205; numbers: spec decision D13). -/
def Obligations.StepCompletesHoldsOrFaults : Prop :=
  ∀ s : State, (∃ t, step s = .next t) ∨ ∃ f, step s = .fault f ∧ 1 ≤ faultCode f ∧ faultCode f ≤ 4

/-- Which instruction raises which fault, and when (60_exceptions.md R201 to R204, R209; spec decisions D10, D11,
D18). -/
def Obligations.FaultOrigins : Prop :=
  ∀ (i : Instr) (s : State) (f : Fault), exec i s = .fault f →
    (∃ addr, i = .call addr ∧ f = .stackOverflow ∧ s.sp.val = 16) ∨
    (i = .ret ∧ f = .stackUnderflow ∧ s.sp.val = 0) ∨
    (∃ x, (i = .skipIfKeyPressed x ∨ i = .skipIfKeyNotPressed x) ∧
      f = .invalidKeyIndex (s.readV x) ∧ 16 ≤ (s.readV x).toNat) ∨
    (f = .memoryOutOfRange (max s.i.toNat 4096) ∧
      ((∃ x, i = .storeRegistersToMemory x ∧ 4095 < s.i.toNat + x.val) ∨
       (∃ x, i = .loadRegistersFromMemory x ∧ 4095 < s.i.toNat + x.val) ∨
       (∃ x, i = .convertToDecimalDigits x ∧ 4095 < s.i.toNat + 2) ∨
       (∃ x y n, i = .drawSprite x y n ∧ 0 < n.val ∧ 4096 < s.i.toNat + n.val)))

/-- What the general registers, `I`, `SP`, `STACK`, `DT`, `ST`, `TICK` and `MEM` can be changed by, over all
instructions (the written columns of the access matrix of 10_state.md R33, and R20, R22, R24, R25, R26, R27, R28;
20_memory.md R50). -/
def Obligations.AccessMatrixRespected : Prop :=
  ∀ (i : Instr) (s t : State), exec i s = .next t →
    t.tick = s.tick ∧
    (∀ r, t.readV r ≠ s.readV r → r ∈ destinationRegs i) ∧
    (t.i ≠ s.i → (∃ a, i = .setIndex a) ∨ (∃ x, i = .addToIndex x) ∨ ∃ x, i = .setIndexToDigitSprite x) ∧
    (t.sp ≠ s.sp → (∃ a, i = .call a) ∨ i = .ret) ∧
    (t.stack ≠ s.stack → ∃ a, i = .call a) ∧
    (t.dt ≠ s.dt → ∃ x, i = .storeDelayTimer x) ∧
    (t.st ≠ s.st → ∃ x, i = .storeSoundTimer x) ∧
    (t.mem ≠ s.mem → (∃ x, i = .storeRegistersToMemory x) ∨ ∃ x, i = .convertToDecimalDigits x)

/-- `VF` changes only by one of the six flag writers or by an instruction whose destination is register 15
(10_state.md R21; 70_reset_and_hazards.md R247). -/
def Obligations.FlagRegisterWriters : Prop :=
  ∀ (i : Instr) (s t : State), exec i s = .next t → t.readV 15 ≠ s.readV 15 →
    (∃ x y, i = .add x y ∨ i = .subtract x y ∨ i = .subtractReversed x y) ∨
    (∃ x, i = .shiftRight x ∨ i = .shiftLeft x) ∨ (∃ x y n, i = .drawSprite x y n) ∨
    (∃ kk, i = .setImmediate 15 kk ∨ i = .addImmediate 15 kk ∨ i = .generateRandomByte 15 kk) ∨
    (∃ y, i = .copyRegister 15 y ∨ i = .bitOr 15 y ∨ i = .bitAnd 15 y ∨ i = .bitXor 15 y) ∨
    i = .loadDelayTimer 15 ∨ i = .waitForKey 15 ∨ i = .loadRegistersFromMemory 15

/-- No instruction but LoadDelayTimer reads `DT`, and none, LoadDelayTimer included, reads `ST` or `TICK`: with other
values in them it does the same to everything else and faults alike (the read side of the access matrix of 10_state.md R33; R26, R27, R28). -/
def Obligations.TimersReadOnlyByLoadDelayTimer : Prop :=
  ∀ (i : Instr) (s : State) (d b : Byte) (k : BitVec 3), ((∀ x, i ≠ .loadDelayTimer x) ∨ d = s.dt) →
    (∀ t, exec i s = .next t → ∃ u, exec i { s with dt := d, st := b, tick := k } = .next u ∧
      { u with dt := t.dt, st := t.st, tick := t.tick } = t) ∧
    (∀ f, exec i s = .fault f → exec i { s with dt := d, st := b, tick := k } = .fault f)

/-! ### Reset, invariant, load -/

/-- Reset: everything is 0 and no capability has been called (10_state.md R32; 70_reset_and_hazards.md R240; `TICK`
and the absence of calls are spec decision D21). -/
def Obligations.ResetIsZero : Prop :=
  (∀ r, State.reset.readV r = 0) ∧ State.reset.i = 0 ∧ State.reset.pc = 0 ∧ State.reset.sp = 0 ∧
  (∀ k : Fin 16, State.reset.stack[k.val] = 0) ∧ State.reset.dt = 0 ∧ State.reset.st = 0 ∧ State.reset.tick = 0 ∧
  (∀ a, State.reset.mem.read a = 0) ∧ State.reset.calls = []

/-- The invariant holds after reset. -/
def Obligations.ResetHasInvariant : Prop := State.reset.Inv

/-- Every step keeps the invariant: the memory stays canonical, every return slot stays at most 0x1000, `PC` stays at
most 0x10FE, and only a WaitForKey is ever held (20_memory.md R56; 40_cycle.md R104, R107; 41_control_flow.md R121,
R122, R127). -/
def Obligations.StepKeepsInvariant : Prop :=
  ∀ s t : State, s.Inv → step s = .next t → t.Inv

/-- `load` of at most 3584 bytes: `PC`, the font table and the program bytes (70_reset_and_hazards.md R241). The
values of the font's bytes are the parameter FONT (log 8). -/
def Obligations.LoadPlacesFontAndProgram : Prop :=
  ∀ (s : State) (program : List Byte), s.mem.wf → program.length ≤ 3584 →
    ∃ t, s.load program = .loaded t ∧ t.pc = 0x0200 ∧
      (∀ k, k < 80 → some (t.mem.read k) = Config.font[k]?) ∧
      (∀ k, k < program.length → some (t.mem.read (0x200 + k)) = program[k]?)

/-- `load` touches nothing else, and a longer program is turned away whole (70_reset_and_hazards.md R242, R243; spec
decision D30). -/
def Obligations.LoadTouchesNothingElse : Prop :=
  ∀ (s : State) (program : List Byte),
    (3584 < program.length → s.load program = .tooLarge program.length) ∧
    ∀ t, s.load program = .loaded t →
      program.length ≤ 3584 ∧ sameRegs [] s t ∧ t.i = s.i ∧ sameStack s t ∧ sameTimers s t ∧ sameOutside s t ∧
      (∀ a, (80 ≤ a ∧ a < 0x200) ∨ 0x200 + program.length ≤ a → t.mem.read a = s.mem.read a)

/-- A load outside a held cycle keeps the invariant, so a loaded machine runs in it. -/
def Obligations.LoadKeepsInvariant : Prop :=
  ∀ (s t : State) (program : List Byte), s.Inv → s.held = false → s.load program = .loaded t → t.Inv

/-- Equal memories are equal data: two canonical memories that read the same everywhere are the same list (the
model's form of 20_memory.md R63, R64). -/
def Obligations.CanonicalMemoryIsExtensional : Prop :=
  ∀ m m' : Memory, m.wf → m'.wf → (∀ a, m.read a = m'.read a) → m = m'

/-! ### Timers -/

/-- The timer step: `TICK` counts modulo 8; on its wrap both timers fall by 8 and stop at 0; nothing else of the
block changes (60_exceptions.md R214, R215; the phase is spec decision D14). -/
def Obligations.TimerStepEffect : Prop :=
  ∀ s : State,
    s.timerStep.tick.toNat = (s.tick.toNat + 1) % 8 ∧
    (s.tick.toNat = 7 → s.timerStep.dt.toNat = s.dt.toNat - 8 ∧ s.timerStep.st.toNat = s.st.toNat - 8) ∧
    (s.tick.toNat ≠ 7 → s.timerStep.dt = s.dt ∧ s.timerStep.st = s.st) ∧
    sameRegs [] s s.timerStep ∧ s.timerStep.i = s.i ∧ s.timerStep.pc = s.pc ∧ sameStack s s.timerStep ∧
    sameMemory s s.timerStep ∧ s.timerStep.inputs = s.inputs ∧ s.timerStep.display = s.display

/-- After `k` timer steps `TICK` has gone on by `k` modulo 8 and each timer has fallen by 8 per wrap, stopping at 0
(60_exceptions.md R217, the spec's own inference; spec decision D14). -/
def Obligations.TimersAfterManyCycles : Prop :=
  ∀ (k : Nat) (s : State),
    (State.timerStep^[k] s).tick.toNat = (s.tick.toNat + k) % 8 ∧
    (State.timerStep^[k] s).dt.toNat = s.dt.toNat - 8 * ((s.tick.toNat + k) / 8) ∧
    (State.timerStep^[k] s).st.toNat = s.st.toNat - 8 * ((s.tick.toNat + k) / 8)

/-- `tone_end` is signalled once per crossing and never otherwise: by the timer firing that takes `ST` from nonzero
to 0 (60_exceptions.md R216; spec decisions D14, D15). -/
def Obligations.ToneEndOncePerCrossing : Prop :=
  ∀ s t : State, step s = .next t →
    ∃ u, exec s.fetched s = .next u ∧
      t.calls.count .toneEnd = s.calls.count .toneEnd +
        (if u.held = false ∧ s.tick.toNat = 7 ∧ 0 < u.st.toNat ∧ u.st.toNat ≤ 8 then 1 else 0)

/-- Between writes the delay timer never rises, and it changes only in a cycle whose step wraps `TICK`
(60_exceptions.md R217, the spec's own inference; spec decision D14). -/
def Obligations.DelayTimerNonIncreasing : Prop :=
  ∀ s t : State, step s = .next t → (∀ x, s.fetched ≠ .storeDelayTimer x) →
    t.dt.toNat ≤ s.dt.toNat ∧ (t.dt ≠ s.dt → s.tick.toNat = 7 ∧ t.tick.toNat = 0)

/-- In the cycle that wraps `TICK`, StoreDelayTimer's new value is decremented in the same cycle and LoadDelayTimer
reads the value before the decrement (40_cycle.md R105; 42_data_movement.md R144, R145; spec decisions D4, D14). -/
def Obligations.TimerAccessInFiringCycle : Prop :=
  ∀ (s : State) (x : Reg), s.pc.toNat + 1 ≤ 0x0FFF → s.tick.toNat = 7 →
    (s.fetched = .storeDelayTimer x → ∃ t, step s = .next t ∧ t.dt.toNat = (s.readV x).toNat - 8) ∧
    (s.fetched = .loadDelayTimer x → ∃ t, step s = .next t ∧ t.readV x = s.dt ∧ t.dt.toNat = s.dt.toNat - 8)

/-- While WaitForKey is held nothing changes and no other cycle starts: however many looks find no answer (log 1), the
run goes on, the block's state is the one before, and the same instruction is still to be finished (40_cycle.md R107). -/
def Obligations.HeldRunChangesNothing : Prop :=
  ∀ (k : Nat) (s : State) (x : Reg) (rest : List (Option Key)),
    s.pc.toNat + 1 ≤ 0x0FFF → s.fetched = .waitForKey x → s.inputs.waits = List.replicate (k + 1) none ++ rest →
    ∃ t, Host.Core.run Sys2Proof.core (k + 1) s = .next t ∧ t.held = true ∧ sameBlock s t ∧
      t.fetched = .waitForKey x ∧ t.inputs.waits = rest

/-- A settled machine stays settled: each further cycle changes only the timers and, at most, signals `tone_end`
(40_cycle.md R108; the notion is spec decision D27). -/
def Obligations.SettledStaysSettled : Prop :=
  ∀ s : State, s.settled → ∃ t, step s = .next t ∧ t.settled ∧ sameRegs [] s t ∧ t.i = s.i ∧ t.pc = s.pc ∧
    sameStack s t ∧ sameMemory s t ∧ t.inputs = s.inputs ∧ t.display = s.display ∧
    (t.calls = s.calls ∨ t.calls = s.calls ++ [.toneEnd])

/-! ### Control flow -/

/-- JumpAbsolute: its word, `PC` is the address and nothing else changes (41_control_flow.md R120). -/
def Obligations.JumpAbsoluteResult : Prop :=
  ∀ (addr : Addr) (s : State),
    (encode (.jumpAbsolute addr)).toNat = 0x1000 + addr.toNat ∧
    ∃ t, completesAt (.jumpAbsolute addr) s t addr.toNat ∧ onlyRegs [] s t

/-- Call: with a free slot, the address after it is pushed and control goes to `addr`; with 16 calls outstanding it
faults (41_control_flow.md R121; 60_exceptions.md R202; spec decision D10). -/
def Obligations.CallResult : Prop :=
  ∀ (addr : Addr) (s : State),
    (s.sp.val < 16 → ∃ t, completesAt (.call addr) s t addr.toNat ∧ t.sp.val = s.sp.val + 1 ∧
      (∀ k : Fin 16, t.stack[k.val] = if k.val = s.sp.val then s.pc + 2 else s.stack[k.val]) ∧
      sameRegs [] s t ∧ t.i = s.i ∧ sameTimers s t ∧ sameMemory s t ∧ sameOutside s t) ∧
    (s.sp.val = 16 → exec (.call addr) s = .fault .stackOverflow)

/-- Return: its word; `SP` falls by one and `PC` is the popped slot, all 16 bits of it, the slot keeping its value; on
an empty stack it faults (41_control_flow.md R122). -/
def Obligations.ReturnResult : Prop :=
  ∀ s : State,
    encode .ret = 0x00EE ∧
    (∀ k : Fin 16, s.sp.val = k.val + 1 → ∃ t, completesAt .ret s t (s.stack[k.val]).toNat ∧ t.sp.val = k.val ∧
      t.stack = s.stack ∧ sameRegs [] s t ∧ t.i = s.i ∧ sameTimers s t ∧ sameMemory s t ∧ sameOutside s t) ∧
    (s.sp.val = 0 → exec .ret s = .fault .stackUnderflow)

/-- A Return undoes a Call, whatever was done in between to everything but the return stack (41_control_flow.md R121,
R122; spec decision D10). -/
def Obligations.CallThenReturn : Prop :=
  ∀ (addr : Addr) (s t u : State), exec (.call addr) s = .next t → u.sp = t.sp → u.stack = t.stack →
    ∃ v, exec .ret u = .next v ∧ v.pc = s.pc + 2 ∧ v.sp = s.sp

/-- The two immediate skips: `PC` advanced by 4 or by 2, nothing else changed (41_control_flow.md R123, R124). -/
def Obligations.ImmediateSkips : Prop :=
  ∀ (x : Reg) (kk : Byte) (s : State),
    (∃ t, completesAt (.skipIfEqualImmediate x kk) s t
        (s.pc.toNat + if (s.readV x).toNat = kk.toNat then 4 else 2) ∧ onlyRegs [] s t) ∧
    (∃ t, completesAt (.skipIfNotEqualImmediate x kk) s t
        (s.pc.toNat + if (s.readV x).toNat = kk.toNat then 2 else 4) ∧ onlyRegs [] s t)

/-- The two register skips: `PC` advanced by 4 or by 2, nothing else changed (41_control_flow.md R125, R126). -/
def Obligations.RegisterSkips : Prop :=
  ∀ (x y : Reg) (s : State),
    (∃ t, completesAt (.skipIfRegistersEqual x y) s t
        (s.pc.toNat + if (s.readV x).toNat = (s.readV y).toNat then 4 else 2) ∧ onlyRegs [] s t) ∧
    (∃ t, completesAt (.skipIfRegistersNotEqual x y) s t
        (s.pc.toNat + if (s.readV x).toNat = (s.readV y).toNat then 2 else 4) ∧ onlyRegs [] s t)

/-- JumpIndexed: `PC` is `V[0]` plus the address, not reduced to 12 bits (41_control_flow.md R127). -/
def Obligations.JumpIndexedResult : Prop :=
  ∀ (addr : Addr) (s : State),
    ∃ t, completesAt (.jumpIndexed addr) s t ((s.readV 0).toNat + addr.toNat) ∧
      t.pc.toNat = (s.readV 0).toNat + addr.toNat ∧ onlyRegs [] s t

/-- UNKNOWN is a no-operation that advances `PC` by 2, whatever the word (40_cycle.md R110). -/
def Obligations.UnknownResult : Prop :=
  ∀ (raw : Word) (s : State), ∃ t, completesAt (.unknown raw) s t (s.pc.toNat + 2) ∧ onlyRegs [] s t

/-! ### Data movement -/

/-- SetImmediate and CopyRegister (42_data_movement.md R140, R141; the meaning is the spec's own inference from the
tag and the direction of the copy its general knowledge). -/
def Obligations.RegisterMoves : Prop :=
  ∀ (x y : Reg) (kk : Byte) (s : State),
    (∃ t, completesAt (.setImmediate x kk) s t (s.pc.toNat + 2) ∧ t.readV x = kk ∧ onlyRegs [x] s t) ∧
    (∃ t, completesAt (.copyRegister x y) s t (s.pc.toNat + 2) ∧ t.readV x = s.readV y ∧ onlyRegs [x] s t)

/-- SetIndex: `I` is the zero-extended address (42_data_movement.md R142). -/
def Obligations.SetIndexResult : Prop :=
  ∀ (addr : Addr) (s : State),
    ∃ t, completesAt (.setIndex addr) s t (s.pc.toNat + 2) ∧ t.i.toNat = addr.toNat ∧ onlyIndex s t

/-- AddToIndex adds modulo 2^16 and writes no flag; SetIndexToDigitSprite makes `V[x] * 5`, without wrap
(42_data_movement.md R143, R147; spec decisions D29, D8; log 6). -/
def Obligations.IndexArithmetic : Prop :=
  ∀ (x : Reg) (s : State),
    (∃ t, completesAt (.addToIndex x) s t (s.pc.toNat + 2) ∧
      t.i.toNat = (s.i.toNat + (s.readV x).toNat) % 65536 ∧ onlyIndex s t) ∧
    (∃ t, completesAt (.setIndexToDigitSprite x) s t (s.pc.toNat + 2) ∧
      t.i.toNat = (s.readV x).toNat * 5 ∧ onlyIndex s t)

/-- LoadDelayTimer, StoreDelayTimer and StoreSoundTimer; the last signals `tone_start` whatever the value
(42_data_movement.md R144, R145, R146; spec decisions D4, D15). -/
def Obligations.TimerTransfers : Prop :=
  ∀ (x : Reg) (s : State),
    (∃ t, completesAt (.loadDelayTimer x) s t (s.pc.toNat + 2) ∧ t.readV x = s.dt ∧ onlyRegs [x] s t) ∧
    (∃ t, completesAt (.storeDelayTimer x) s t (s.pc.toNat + 2) ∧ t.dt = s.readV x ∧ t.st = s.st ∧ t.tick = s.tick ∧
      sameRegs [] s t ∧ t.i = s.i ∧ sameStack s t ∧ sameMemory s t ∧ sameOutside s t) ∧
    (∃ t, completesAt (.storeSoundTimer x) s t (s.pc.toNat + 2) ∧ t.st = s.readV x ∧ t.dt = s.dt ∧ t.tick = s.tick ∧
      t.calls = s.calls ++ [.toneStart] ∧ t.inputs = s.inputs ∧ t.display = s.display ∧
      sameRegs [] s t ∧ t.i = s.i ∧ sameStack s t ∧ sameMemory s t)

/-- StoreRegistersToMemory: byte `I + k` is `V[k]` for `k` up to `x`, every other byte and everything else but `PC`
unchanged (42_data_movement.md R148; 20_memory.md R57; spec decisions D9, D11; log 7). -/
def Obligations.StoreRegistersResult : Prop :=
  ∀ (x : Reg) (s : State), s.mem.wf → s.transferBase + x.val ≤ 4095 →
    s.transferBase = s.i.toNat ∧
    ∃ t, completesAt (.storeRegistersToMemory x) s t (s.pc.toNat + 2) ∧
      (∀ k : Reg, k ≤ x → t.mem.read (s.transferBase + k.val) = s.readV k) ∧
      onlyBytes s.transferBase (x.val + 1) s t

/-- LoadRegistersFromMemory: `V[k]` is byte `I + k` for `k` up to `x`, the registers above keep their values
(42_data_movement.md R149; spec decisions D9, D11; log 7). -/
def Obligations.LoadRegistersResult : Prop :=
  ∀ (x : Reg) (s : State), s.i.toNat + x.val ≤ 4095 →
    ∃ t, completesAt (.loadRegistersFromMemory x) s t (s.pc.toNat + 2) ∧
      (∀ k : Reg, k ≤ x → t.readV k = s.mem.read (s.i.toNat + k.val)) ∧
      (∀ k : Reg, x < k → t.readV k = s.readV k) ∧
      t.i = s.i ∧ sameStack s t ∧ sameTimers s t ∧ sameMemory s t ∧ sameOutside s t

/-- ConvertToDecimalDigits: the three bytes from `I` on are the decimal digits of `V[x]`, hundreds first
(42_data_movement.md R150; spec decisions D8, D11, D23; log 6). -/
def Obligations.DecimalDigitsResult : Prop :=
  ∀ (x : Reg) (s : State), s.mem.wf → s.transferBase + 2 ≤ 4095 →
    s.transferBase = s.i.toNat ∧
    ∃ t, completesAt (.convertToDecimalDigits x) s t (s.pc.toNat + 2) ∧
      (t.mem.read s.transferBase).toNat * 100 + (t.mem.read (s.transferBase + 1)).toNat * 10 +
        (t.mem.read (s.transferBase + 2)).toNat = (s.readV x).toNat ∧
      (t.mem.read (s.transferBase + 1)).toNat ≤ 9 ∧ (t.mem.read (s.transferBase + 2)).toNat ≤ 9 ∧
      onlyBytes s.transferBase 3 s t

/-- A transfer that would touch an address of 4096 or more faults with the first such address, before anything
moves (20_memory.md R56, R57; 60_exceptions.md R204; spec decisions D11, D12). -/
def Obligations.TransferRangeFaults : Prop :=
  ∀ (x y : Reg) (n : Fin 16) (s : State),
    (4095 < s.i.toNat + x.val →
      exec (.storeRegistersToMemory x) s = .fault (.memoryOutOfRange (max s.i.toNat 4096)) ∧
      exec (.loadRegistersFromMemory x) s = .fault (.memoryOutOfRange (max s.i.toNat 4096))) ∧
    (4095 < s.i.toNat + 2 →
      exec (.convertToDecimalDigits x) s = .fault (.memoryOutOfRange (max s.i.toNat 4096))) ∧
    (0 < n.val → 4096 < s.i.toNat + n.val →
      exec (.drawSprite x y n) s = .fault (.memoryOutOfRange (max s.i.toNat 4096)))

/-! ### Arithmetic -/

/-- Or, And and Xor combine bit by bit and write no flag (43_arithmetic.md R162, R163, R164; spec decision D29). -/
def Obligations.BitwiseResults : Prop :=
  ∀ (x y : Reg) (s : State),
    (∃ t, completesAt (.bitOr x y) s t (s.pc.toNat + 2) ∧ onlyRegs [x] s t ∧
      ∀ k, k < 8 → (t.readV x).getLsbD k = ((s.readV x).getLsbD k || (s.readV y).getLsbD k)) ∧
    (∃ t, completesAt (.bitAnd x y) s t (s.pc.toNat + 2) ∧ onlyRegs [x] s t ∧
      ∀ k, k < 8 → (t.readV x).getLsbD k = ((s.readV x).getLsbD k && (s.readV y).getLsbD k)) ∧
    (∃ t, completesAt (.bitXor x y) s t (s.pc.toNat + 2) ∧ onlyRegs [x] s t ∧
      ∀ k, k < 8 → (t.readV x).getLsbD k = ((s.readV x).getLsbD k ^^ (s.readV y).getLsbD k))

/-- Add: the sum modulo 256, and the carry in `VF`, written last (43_arithmetic.md R161, R165, R171; spec decisions
D5, D6). -/
def Obligations.AddResult : Prop :=
  ∀ (x y : Reg) (s : State),
    ∃ t, completesAt (.add x y) s t (s.pc.toNat + 2) ∧ onlyRegs [x, 15] s t ∧
      (t.readV 15).toNat = ((s.readV x).toNat + (s.readV y).toNat) / 256 ∧
      (x ≠ 15 → (t.readV x).toNat = ((s.readV x).toNat + (s.readV y).toNat) % 256)

/-- Subtract and SubtractReversed: the difference modulo 256, written last, and `VF` strictly-greater
(43_arithmetic.md R161, R166, R167, R171; spec decisions D5, D6, D7; log 5). -/
def Obligations.SubtractResults : Prop :=
  ∀ (x y : Reg) (s : State),
    (∃ t, completesAt (.subtract x y) s t (s.pc.toNat + 2) ∧ onlyRegs [x, 15] s t ∧
      (t.readV x).toNat = ((s.readV x).toNat + 256 - (s.readV y).toNat) % 256 ∧
      (x ≠ 15 → (t.readV 15).toNat = if (s.readV y).toNat < (s.readV x).toNat then 1 else 0)) ∧
    (∃ t, completesAt (.subtractReversed x y) s t (s.pc.toNat + 2) ∧ onlyRegs [x, 15] s t ∧
      (t.readV x).toNat = ((s.readV y).toNat + 256 - (s.readV x).toNat) % 256 ∧
      (x ≠ 15 → (t.readV 15).toNat = if (s.readV x).toNat < (s.readV y).toNat then 1 else 0))

/-- ShiftRight and ShiftLeft: by one bit, result written last; `VF` is the bit shifted out, as 0 or 1 to the right
and as 0 or 128 to the left (43_arithmetic.md R161, R168, R169, R171; spec decisions D3, D5, D6, D7; log 5). -/
def Obligations.ShiftResults : Prop :=
  ∀ (x : Reg) (s : State),
    (∃ t, completesAt (.shiftRight x) s t (s.pc.toNat + 2) ∧ onlyRegs [x, 15] s t ∧
      (t.readV x).toNat = (s.readV x).toNat / 2 ∧
      (x ≠ 15 → (t.readV 15).toNat = (s.readV x).toNat % 2)) ∧
    (∃ t, completesAt (.shiftLeft x) s t (s.pc.toNat + 2) ∧ onlyRegs [x, 15] s t ∧
      (t.readV x).toNat = (s.readV x).toNat * 2 % 256 ∧
      (x ≠ 15 → (t.readV 15).toNat = (s.readV x).toNat / 128 * 128))

/-- AddImmediate: the sum modulo 256, no flag (43_arithmetic.md R170). -/
def Obligations.AddImmediateResult : Prop :=
  ∀ (x : Reg) (kk : Byte) (s : State),
    ∃ t, completesAt (.addImmediate x kk) s t (s.pc.toNat + 2) ∧ onlyRegs [x] s t ∧
      (t.readV x).toNat = ((s.readV x).toNat + kk.toNat) % 256

/-- The two flag conventions differ exactly on equal operands of a subtraction and on the value of the left shift's
flag (43_arithmetic.md R172; the conventional column is the spec's general knowledge). -/
def Obligations.FlagConventionsDiffer : Prop :=
  ∀ a b : Byte,
    (subtractFlag .reference a b ≠ subtractFlag .conventional a b ↔ a = b) ∧
    (shiftLeftFlag .reference a).toNat = (shiftLeftFlag .conventional a).toNat * 128

/-! ### Input and output -/

/-- ClearScreen: its word; one `clear()` call, `PC` advanced, nothing else of the block changed; a composed reference
display has all pixels unset (44_io.md R180). -/
def Obligations.ClearScreenResult : Prop :=
  ∀ s : State,
    encode .clearScreen = 0x00E0 ∧
    ∃ t, completesAt .clearScreen s t (s.pc.toNat + 2) ∧ t.calls = s.calls ++ [.clear] ∧ t.inputs = s.inputs ∧
      (s.display = .external → t.display = .external) ∧
      (∀ pix, s.display = .reference pix → ∃ pix', t.display = .reference pix' ∧ ∀ px py, pix'.lit px py = false) ∧
      sameRegs [] s t ∧ t.i = s.i ∧ sameStack s t ∧ sameTimers s t ∧ sameMemory s t

/-- GenerateRandomByte: one `next_byte()` call, whatever it answers masked into `V[x]` (44_io.md R181; spec decision
D17; the answer is the input of log 2, free past the host's list). -/
def Obligations.RandomByteResult : Prop :=
  ∀ (x : Reg) (mask : Byte) (s : State),
    ∃ t, completesAt (.generateRandomByte x mask) s t (s.pc.toNat + 2) ∧ t.calls = s.calls ++ [.nextByte] ∧
      (∀ k, k < 8 → (t.readV x).getLsbD k = (s.randomAnswer.getLsbD k && mask.getLsbD k)) ∧
      (∀ b, s.inputs.random.head? = some b → s.randomAnswer = b) ∧
      t.inputs = { s.inputs with random := s.inputs.random.tail, asked := s.inputs.asked + 1 } ∧
      t.display = s.display ∧ sameRegs [x] s t ∧ t.i = s.i ∧ sameStack s t ∧ sameTimers s t ∧ sameMemory s t

/-- DrawSprite on legal addresses: one `draw` call with the registers' old values and the bytes from `I` on; `VF` is 1
exactly when the display reports a collision (44_io.md R182; spec decisions D5, D6, D11, D16; the answer is the input
of log 2, or the reference display's, log 4). -/
def Obligations.DrawSpriteResult : Prop :=
  ∀ (x y : Reg) (n : Fin 16) (s : State), n.val = 0 ∨ s.i.toNat + n.val ≤ 4096 →
    ∃ t rows, completesAt (.drawSprite x y n) s t (s.pc.toNat + 2) ∧
      rows.length = n.val ∧ (∀ k, k < n.val → rows[k]? = some (s.mem.read (s.i.toNat + k))) ∧
      t.calls = s.calls ++ [.draw (s.readV x) (s.readV y) rows] ∧
      (t.readV 15).toNat = (if s.drawAnswer (s.readV x) (s.readV y) rows then 1 else 0) ∧
      (∀ pix, s.display = .reference pix → t.inputs = s.inputs ∧
        s.drawAnswer (s.readV x) (s.readV y) rows = (pix.draw (s.readV x) (s.readV y) rows).2 ∧
        t.display = .reference (pix.draw (s.readV x) (s.readV y) rows).1) ∧
      (s.display = .external → t.display = .external ∧
        (∀ h, s.inputs.hits.head? = some h → s.drawAnswer (s.readV x) (s.readV y) rows = h) ∧
        t.inputs = { s.inputs with hits := s.inputs.hits.tail, asked := s.inputs.asked + 1 }) ∧
      sameRegs [15] s t ∧ t.i = s.i ∧ sameStack s t ∧ sameTimers s t ∧ sameMemory s t

/-- The two key skips: on a register value of 0 to 15 one `poll()` call decides the skip; on 16 or more the fault
comes before the poll (44_io.md R183, R184; 60_exceptions.md R201; spec decision D18; the answer is the input of log
2). -/
def Obligations.KeySkips : Prop :=
  ∀ (x : Reg) (s : State),
    (∀ keys, s.inputs.polls.head? = some keys → s.pollAnswer = keys) ∧
    (∀ k : Key, (s.readV x).toNat = k.val →
      (∃ t, completesAt (.skipIfKeyPressed x) s t (s.pc.toNat + if s.pollAnswer[k.val] = true then 4 else 2) ∧
        t.calls = s.calls ++ [.poll] ∧ t.display = s.display ∧
        t.inputs = { s.inputs with polls := s.inputs.polls.tail, asked := s.inputs.asked + 1 } ∧
        sameRegs [] s t ∧ t.i = s.i ∧ sameStack s t ∧ sameTimers s t ∧ sameMemory s t) ∧
      (∃ t, completesAt (.skipIfKeyNotPressed x) s t (s.pc.toNat + if s.pollAnswer[k.val] = true then 2 else 4) ∧
        t.calls = s.calls ++ [.poll] ∧ t.display = s.display ∧
        t.inputs = { s.inputs with polls := s.inputs.polls.tail, asked := s.inputs.asked + 1 } ∧
        sameRegs [] s t ∧ t.i = s.i ∧ sameStack s t ∧ sameTimers s t ∧ sameMemory s t)) ∧
    (16 ≤ (s.readV x).toNat →
      exec (.skipIfKeyPressed x) s = .fault (.invalidKeyIndex (s.readV x)) ∧
      exec (.skipIfKeyNotPressed x) s = .fault (.invalidKeyIndex (s.readV x)))

/-- WaitForKey with an answer: the key's index, zero-extended, into `V[x]`, one call, the cycle completed (44_io.md
R185; spec decision D19; the answer is the input of log 2). -/
def Obligations.WaitForKeyResult : Prop :=
  ∀ (x : Reg) (k : Key) (s : State),
    (s.inputs.waits.head? = some (some k) → s.waitAnswer = some k) ∧
    (s.waitAnswer = some k →
      ∃ t, completesAt (.waitForKey x) s t (s.pc.toNat + 2) ∧ (t.readV x).toNat = k.val ∧
        t.calls = s.calls ++ [.waitForKey] ∧ t.display = s.display ∧
        t.inputs = { s.inputs with waits := s.inputs.waits.tail, asked := s.inputs.asked + 1 } ∧
        sameRegs [x] s t ∧ t.i = s.i ∧ sameStack s t ∧ sameTimers s t ∧ sameMemory s t)

/-- WaitForKey without an answer, whether the host listed none or the free value past the list is none: the cycle is
held, the block is as before, and no call is recorded (44_io.md R185; 40_cycle.md R107; spec decision D19; the form of
the held outcome is log 1, the answer is the input of log 2). -/
def Obligations.WaitForKeyHolds : Prop :=
  ∀ (x : Reg) (s : State),
    (s.inputs.waits.head? = some none → s.waitAnswer = none) ∧
    (s.waitAnswer = none →
      ∃ t, exec (.waitForKey x) s = .next t ∧ t.held = true ∧ sameBlock s t ∧
        t.inputs = { s.inputs with waits := s.inputs.waits.tail, asked := s.inputs.asked + 1 })

/-! ### The reference display -/

/-- One draw of the reference display: each pixel is toggled exactly when a 1 bit of the sprite falls on it, and the
collision says whether one of those was set (60_exceptions.md R218, R222; bit order: spec decision D16). -/
def Obligations.ReferenceDrawPixels : Prop :=
  ∀ (p : Pixels) (x y : Byte) (rows : List Byte), rows.length ≤ 15 →
    (∀ px py, px < 64 → py < 32 →
      ((p.draw x y rows).1.lit px py ≠ p.lit px py ↔
        ∃ r c row, rows[r]? = some row ∧ c < 8 ∧ row.getLsbD (7 - c) = true ∧
          (x.toNat + c) % 64 = px ∧ (y.toNat + r) % 32 = py)) ∧
    ((p.draw x y rows).2 = true ↔
      ∃ r c row, rows[r]? = some row ∧ c < 8 ∧ row.getLsbD (7 - c) = true ∧
        p.lit ((x.toNat + c) % 64) ((y.toNat + r) % 32) = true)

/-- Drawing the same rows at the same place twice restores the grid, from any grid; from a clear one the first draw
reports no collision and the second one does exactly when the sprite has a 1 bit (60_exceptions.md R222). -/
def Obligations.DrawTwiceRestores : Prop :=
  ∀ (x y : Byte) (rows : List Byte), rows.length ≤ 15 →
    (∀ p : Pixels, ((p.draw x y rows).1.draw x y rows).1 = p) ∧
    (Pixels.blank.draw x y rows).2 = false ∧
    (((Pixels.blank.draw x y rows).1.draw x y rows).2 = true ↔ ∃ row ∈ rows, row ≠ 0)
end

