-- ==== Sys2Proof/Laws/Decode.lean ====
section
/-! SUPPORT. The fields of an assembled word, and the bytes of a word (30_encoding.md R71, R72; 20_memory.md R53). -/

namespace Sys2Proof.Machine

@[simp] theorem toReg_ofReg (r : Reg) : toReg (ofReg r) = r := rfl

@[simp] theorem ofReg_toReg (b : BitVec 4) : ofReg (toReg b) = b := rfl

theorem wordNNN_toNat (op : BitVec 4) (nnn : Addr) : (wordNNN op nnn).toNat = op.toNat * 4096 + nnn.toNat := by
  have := nnn.isLt
  simp only [wordNNN, BitVec.toNat_append]
  rw [← Nat.shiftLeft_add_eq_or_of_lt this, Nat.shiftLeft_eq]

theorem wordXKK_toNat (op : BitVec 4) (x : Reg) (kk : Byte) :
    (wordXKK op x kk).toNat = op.toNat * 4096 + x.val * 256 + kk.toNat := by
  have := kk.isLt
  have hx : (ofReg x).toNat < 2 ^ 4 := (ofReg x).isLt
  have e : (ofReg x).toNat = x.val := rfl
  simp only [wordXKK, BitVec.toNat_append]
  rw [← Nat.shiftLeft_add_eq_or_of_lt this, ← Nat.shiftLeft_add_eq_or_of_lt hx]
  simp only [Nat.shiftLeft_eq, e]; omega

theorem wordXYN_toNat (op : BitVec 4) (x y : Reg) (n : BitVec 4) :
    (wordXYN op x y n).toNat = op.toNat * 4096 + x.val * 256 + y.val * 16 + n.toNat := by
  have := n.isLt
  have hx : (ofReg x).toNat < 2 ^ 4 := (ofReg x).isLt
  have hy : (ofReg y).toNat < 2 ^ 4 := (ofReg y).isLt
  have ex : (ofReg x).toNat = x.val := rfl
  have ey : (ofReg y).toNat = y.val := rfl
  simp only [wordXYN, BitVec.toNat_append]
  rw [← Nat.shiftLeft_add_eq_or_of_lt this, ← Nat.shiftLeft_add_eq_or_of_lt hy, ← Nat.shiftLeft_add_eq_or_of_lt hx]
  simp only [Nat.shiftLeft_eq, ex, ey]; omega

theorem opField_toNat (w : Word) : (opField w).toNat = w.toNat / 4096 := by
  have := w.isLt
  simp only [opField, BitVec.extractLsb'_toNat, Nat.shiftRight_eq_div_pow]; omega

theorem xField_toNat (w : Word) : (xField w).toNat = w.toNat / 256 % 16 := by
  simp only [xField, BitVec.extractLsb'_toNat, Nat.shiftRight_eq_div_pow]

theorem yField_toNat (w : Word) : (yField w).toNat = w.toNat / 16 % 16 := by
  simp only [yField, BitVec.extractLsb'_toNat, Nat.shiftRight_eq_div_pow]

theorem nField_toNat (w : Word) : (nField w).toNat = w.toNat % 16 := by
  simp only [nField, BitVec.extractLsb'_toNat, Nat.shiftRight_eq_div_pow]; omega

theorem kkField_toNat (w : Word) : (kkField w).toNat = w.toNat % 256 := by
  simp only [kkField, BitVec.extractLsb'_toNat, Nat.shiftRight_eq_div_pow]; omega

theorem nnnField_toNat (w : Word) : (nnnField w).toNat = w.toNat % 4096 := by
  simp only [nnnField, BitVec.extractLsb'_toNat, Nat.shiftRight_eq_div_pow]; omega

@[simp] theorem opField_wordNNN (op : BitVec 4) (a : Addr) : opField (wordNNN op a) = op := by
  have := a.isLt; have := op.isLt
  apply BitVec.eq_of_toNat_eq; rw [opField_toNat, wordNNN_toNat]; omega

@[simp] theorem nnnField_wordNNN (op : BitVec 4) (a : Addr) : nnnField (wordNNN op a) = a := by
  have := a.isLt
  apply BitVec.eq_of_toNat_eq; rw [nnnField_toNat, wordNNN_toNat]; omega

@[simp] theorem opField_wordXKK (op : BitVec 4) (x : Reg) (kk : Byte) : opField (wordXKK op x kk) = op := by
  have := kk.isLt; have := x.isLt
  apply BitVec.eq_of_toNat_eq; rw [opField_toNat, wordXKK_toNat]; omega

@[simp] theorem xField_wordXKK (op : BitVec 4) (x : Reg) (kk : Byte) : xField (wordXKK op x kk) = ofReg x := by
  have := kk.isLt; have := x.isLt; have e : (ofReg x).toNat = x.val := rfl
  apply BitVec.eq_of_toNat_eq; rw [xField_toNat, wordXKK_toNat, e]; omega

@[simp] theorem kkField_wordXKK (op : BitVec 4) (x : Reg) (kk : Byte) : kkField (wordXKK op x kk) = kk := by
  have := kk.isLt
  apply BitVec.eq_of_toNat_eq; rw [kkField_toNat, wordXKK_toNat]; omega

@[simp] theorem opField_wordXYN (op : BitVec 4) (x y : Reg) (n : BitVec 4) : opField (wordXYN op x y n) = op := by
  have := n.isLt; have := x.isLt; have := y.isLt
  apply BitVec.eq_of_toNat_eq; rw [opField_toNat, wordXYN_toNat]; omega

@[simp] theorem xField_wordXYN (op : BitVec 4) (x y : Reg) (n : BitVec 4) : xField (wordXYN op x y n) = ofReg x := by
  have := n.isLt; have := x.isLt; have := y.isLt; have e : (ofReg x).toNat = x.val := rfl
  apply BitVec.eq_of_toNat_eq; rw [xField_toNat, wordXYN_toNat, e]; omega

@[simp] theorem yField_wordXYN (op : BitVec 4) (x y : Reg) (n : BitVec 4) : yField (wordXYN op x y n) = ofReg y := by
  have := n.isLt; have := x.isLt; have := y.isLt; have e : (ofReg y).toNat = y.val := rfl
  apply BitVec.eq_of_toNat_eq; rw [yField_toNat, wordXYN_toNat, e]; omega

@[simp] theorem nField_wordXYN (op : BitVec 4) (x y : Reg) (n : BitVec 4) : nField (wordXYN op x y n) = n := by
  have := n.isLt
  apply BitVec.eq_of_toNat_eq; rw [nField_toNat, wordXYN_toNat]; omega

/-- A word is its two bytes, the first one high (20_memory.md R53). -/
@[simp] theorem wordOfBytes_bytes (w : Word) : wordOfBytes (highByte w) (lowByte w) = w := by
  have := w.isLt
  have hl := (lowByte w).isLt
  apply BitVec.eq_of_toNat_eq
  simp only [wordOfBytes, BitVec.toNat_append]
  rw [← Nat.shiftLeft_add_eq_or_of_lt hl]
  simp only [highByte, lowByte, BitVec.extractLsb'_toNat, Nat.shiftLeft_eq, Nat.shiftRight_eq_div_pow]
  omega

theorem wordOfBytes_toNat (hi lo : Byte) : (wordOfBytes hi lo).toNat = hi.toNat * 256 + lo.toNat := by
  have hl := lo.isLt
  simp only [wordOfBytes, BitVec.toNat_append]
  rw [← Nat.shiftLeft_add_eq_or_of_lt hl, Nat.shiftLeft_eq]

end Sys2Proof.Machine

namespace Sys2Proof

/-- What the decoder reads from the opcode table's word is the decoding of that word. -/
theorem decodeTableWord_eq (nbits w : Nat) : decodeTableWord nbits w = some (decode (BitVec.ofNat 16 w)) := by
  simp [decodeTableWord, decodeBuffer, bytesOfWord, decodePairs]

end Sys2Proof
end

