-- ==== Sys2Proof/Laws/Display.lean ====
section
/-! SUPPORT. The reference display's grid: what a toggle does to a pixel, that toggles commute and undo themselves, and
what a plot does (60_exceptions.md R222). -/

namespace Sys2Proof.Machine

/-- Two places name the same pixel of the toroidal grid. -/
abbrev samePixel (a b : Nat × Nat) : Prop := a.1 % 64 = b.1 % 64 ∧ a.2 % 32 = b.2 % 32

@[simp] theorem Pixels.lit_blank (px py : Nat) : Pixels.blank.lit px py = false := by
  simp [Pixels.lit, Pixels.blank]

/-- A toggle flips its own pixel and no other. -/
theorem Pixels.lit_toggle (p : Pixels) (a b : Nat × Nat) :
    (p.toggle a.1 a.2).lit b.1 b.2 = (p.lit b.1 b.2 ^^ decide (samePixel a b)) := by
  have h64 : b.1 % 64 < 64 := Nat.mod_lt _ (by decide)
  unfold Pixels.lit Pixels.toggle
  by_cases hy : a.2 % 32 = b.2 % 32
  · simp [hy, samePixel, h64, eq_comm]
  · simp [hy, samePixel]

/-- A grid is what its pixels are. -/
theorem Pixels.ext_lit {p q : Pixels} (h : ∀ px py, p.lit px py = q.lit px py) : p = q := by
  apply Vector.ext
  intro r hr
  apply BitVec.eq_of_getLsbD_eq
  intro c hc
  have := h c r
  simpa only [Pixels.lit, Nat.mod_eq_of_lt hc, Nat.mod_eq_of_lt hr] using this

/-- The pixels after a plot: each flipped once per place that names it. -/
theorem plot_lit (cs : List (Nat × Nat)) (p : Pixels) (hit : Bool) (b : Nat × Nat) :
    (plot cs p hit).1.lit b.1 b.2 = (p.lit b.1 b.2 ^^ decide (cs.countP (fun a => samePixel a b) % 2 = 1)) := by
  induction cs generalizing p hit with
  | nil => simp [plot]
  | cons a cs ih =>
    rw [plot, ih, Pixels.lit_toggle, List.countP_cons]
    generalize cs.countP (fun a => samePixel a b) = n
    have h2 : decide ((n + 1) % 2 = 1) = !decide (n % 2 = 1) := by
      rw [← decide_not]; exact decide_eq_decide.mpr (by omega)
    cases decide (samePixel a b) <;> cases p.lit b.1 b.2 <;> simp_all

theorem mem_rowPlaces {px py : Nat} {row : Byte} {q : Nat × Nat} :
    q ∈ rowPlaces px py row ↔ ∃ c, c < 8 ∧ row.getLsbD (7 - c) = true ∧ q = (px + c, py) := by
  have h8 (c : Nat) : c ∈ [0, 1, 2, 3, 4, 5, 6, 7] ↔ c < 8 := by
    simp only [List.mem_cons, List.not_mem_nil, or_false]; omega
  simp only [rowPlaces, List.mem_map, List.mem_filter, h8]
  exact ⟨fun ⟨c, ⟨h, hb⟩, e⟩ => ⟨c, h, hb, e.symm⟩, fun ⟨c, h, hb, e⟩ => ⟨c, ⟨h, hb⟩, e.symm⟩⟩

/-- The places of a sprite are those of its 1 bits (bit 7 is column 0). -/
theorem mem_spritePlaces {px py : Nat} {rows : List Byte} {q : Nat × Nat} :
    q ∈ spritePlaces px py rows ↔
      ∃ r c row, rows[r]? = some row ∧ c < 8 ∧ row.getLsbD (7 - c) = true ∧ q = (px + c, py + r) := by
  induction rows generalizing py with
  | nil => simp [spritePlaces]
  | cons row rows ih =>
    rw [spritePlaces, List.mem_append, mem_rowPlaces, ih]
    constructor
    · rintro (⟨c, hc, hb, rfl⟩ | ⟨r, c, row', hr, hc, hb, rfl⟩)
      · exact ⟨0, c, row, rfl, hc, hb, rfl⟩
      · exact ⟨r + 1, c, row', by simpa using hr, hc, hb, by simp only [Prod.mk.injEq, true_and]; omega⟩
    · rintro ⟨r, c, row', hr, hc, hb, rfl⟩
      cases r with
      | zero => exact .inl ⟨c, hc, by simp at hr; subst hr; exact hb, rfl⟩
      | succ r =>
        exact .inr ⟨r, c, row', by simpa using hr, hc, hb, by simp only [Prod.mk.injEq, true_and]; omega⟩

/-- No two places of a sprite of at most 32 rows are the same pixel. -/
theorem spritePlaces_pairwise {px py : Nat} {rows : List Byte} (h : rows.length ≤ 32) :
    (spritePlaces px py rows).Pairwise (fun a b => ¬samePixel a b) := by
  have row_pairwise (py : Nat) (row : Byte) : (rowPlaces px py row).Pairwise (fun a b => ¬samePixel a b) := by
    have h8 : ([0, 1, 2, 3, 4, 5, 6, 7] : List Nat).Pairwise (fun c d => c < d ∧ d < 8) := by decide
    refine List.Pairwise.map _ (fun c d hcd hs => ?_) (h8.filter _)
    have := hs.1
    simp only at this
    omega
  induction rows generalizing py with
  | nil => exact List.Pairwise.nil
  | cons row rows ih =>
    simp only [List.length_cons] at h
    refine List.pairwise_append.mpr ⟨row_pairwise py row, ih (by omega), fun a ha b hb hs => ?_⟩
    obtain ⟨c, -, -, rfl⟩ := mem_rowPlaces.mp ha
    obtain ⟨r, d, row', hr, -, -, rfl⟩ := mem_spritePlaces.mp hb
    have := (List.getElem?_eq_some_iff.mp hr).1
    have := hs.2
    simp only at this
    omega

/-- When no two places are the same pixel, the plot reports a collision exactly when one of them was set before. -/
theorem plot_hit {cs : List (Nat × Nat)} (h : cs.Pairwise (fun a b => ¬samePixel a b)) (p : Pixels) (hit : Bool) :
    (plot cs p hit).2 = true ↔ hit = true ∨ ∃ a ∈ cs, p.lit a.1 a.2 = true := by
  induction cs generalizing p hit with
  | nil => simp [plot]
  | cons a cs ih =>
    obtain ⟨ha, hcs⟩ := List.pairwise_cons.mp h
    have same : (∃ b ∈ cs, (p.toggle a.1 a.2).lit b.1 b.2 = true) ↔ ∃ b ∈ cs, p.lit b.1 b.2 = true := by
      have e (b : Nat × Nat) (hb : b ∈ cs) : (p.toggle a.1 a.2).lit b.1 b.2 = p.lit b.1 b.2 := by
        rw [Pixels.lit_toggle, decide_eq_false (ha b hb), Bool.xor_false]
      exact ⟨fun ⟨b, hb, h⟩ => ⟨b, hb, by rwa [e b hb] at h⟩, fun ⟨b, hb, h⟩ => ⟨b, hb, by rwa [e b hb]⟩⟩
    rw [plot, ih hcs, same]
    simp only [Bool.or_eq_true, List.mem_cons, exists_eq_or_imp, or_assoc]

end Sys2Proof.Machine
end

