-- ==== Sys2Proof/Laws/Memory.lean ====
section
/-! SUPPORT. The memory: every operation keeps the canonical form, and what a byte reads after a write
(20_memory.md R63). -/

namespace Sys2Proof.Machine

@[simp] theorem memSize_eq : Config.memSize = 4096 := rfl

@[simp] theorem glyphStride_eq : Config.glyphStride = 5 := rfl

@[simp] theorem loadBase_eq : Config.loadBase = 512 := rfl

@[simp] theorem maxProgram_eq : Config.maxProgram = 3584 := rfl

@[simp] theorem length_font : Config.font.length = 80 := rfl

@[simp] theorem Memory.read_nil (a : Nat) : Memory.read [] a = 0 := rfl

theorem Memory.read_cons (c : Host.Cell) (m : Memory) (a : Nat) :
    Memory.read (c :: m) a = if c.1 = a then c.2 else Memory.read m a := rfl

theorem Memory.read_eq_zero {m : Memory} {a : Nat} (h : ∀ c ∈ m, a ≠ c.1) : Memory.read m a = 0 := by
  induction m with
  | nil => rfl
  | cons c m ih =>
    have hc : c.1 ≠ a := fun e => h c (by simp) e.symm
    simp [Memory.read_cons, hc, ih (fun d hd => h d (by simp [hd]))]

theorem Memory.wf_nil : Memory.wf [] := ⟨List.Pairwise.nil, by simp⟩

theorem Memory.wf_tail {c : Host.Cell} {m : Memory} (h : Memory.wf (c :: m)) : Memory.wf m :=
  ⟨(List.pairwise_cons.mp h.1).2, fun d hd => h.2 d (by simp [hd])⟩

/-- A cell of `write m a b` is one of `m` or the written one. -/
theorem Memory.mem_write {m : Memory} {a : Nat} {b : Byte} {c : Host.Cell} (h : c ∈ Memory.write m a b) :
    c ∈ m ∨ (c = (a, b) ∧ b ≠ 0) := by
  induction m with
  | nil =>
    by_cases hb : b = 0 <;> simp_all [Memory.write]
  | cons d m ih =>
    unfold Memory.write at h
    split at h
    · split at h
      · exact .inl h
      · rcases List.mem_cons.mp h with h | h
        · exact .inr ⟨h, ‹_›⟩
        · exact .inl h
    · split at h
      · split at h
        · exact .inl (by simp [h])
        · rcases List.mem_cons.mp h with h | h
          · exact .inr ⟨h, ‹_›⟩
          · exact .inl (by simp [h])
      · rcases List.mem_cons.mp h with h | h
        · exact .inl (by simp [h])
        · exact (ih h).imp (fun h => by simp [h]) id

/-- Writing keeps the canonical form. -/
theorem Memory.write_wf {m : Memory} {a : Nat} (b : Byte) (hm : m.wf) (ha : a < Config.memSize) :
    (m.write a b).wf := by
  refine ⟨?_, fun c hc => ?_⟩
  · induction m with
    | nil => unfold Memory.write; split <;> simp
    | cons d m ih =>
      have hp := List.pairwise_cons.mp hm.1
      unfold Memory.write
      split
      · split
        · exact hm.1
        · refine List.pairwise_cons.mpr ⟨fun e he => ?_, hm.1⟩
          rcases List.mem_cons.mp he with rfl | he
          · assumption
          · exact Nat.lt_trans ‹_› (hp.1 e he)
      · split
        · split
          · exact hp.2
          · refine List.pairwise_cons.mpr ⟨fun e he => ?_, hp.2⟩
            have := hp.1 e he
            simp only; omega
        · refine List.pairwise_cons.mpr ⟨fun e he => ?_, ih (Memory.wf_tail hm)⟩
          rcases Memory.mem_write he with he | ⟨rfl, -⟩
          · exact hp.1 e he
          · simp only; omega
  · rcases Memory.mem_write hc with hc | ⟨rfl, hb⟩
    · exact hm.2 c hc
    · exact ⟨ha, hb⟩

theorem Memory.read_write_ne {m : Memory} {a x : Nat} (b : Byte) (h : x ≠ a) :
    (m.write a b).read x = m.read x := by
  induction m with
  | nil => unfold Memory.write; split <;> simp [Memory.read_cons, h.symm]
  | cons c m ih =>
    unfold Memory.write
    split
    · split
      · rfl
      · simp [Memory.read_cons, h.symm]
    · split
      · have hc : c.1 ≠ x := by omega
        split
        · simp [Memory.read_cons, hc]
        · simp [Memory.read_cons, hc, h.symm]
      · simp [Memory.read_cons, ih]

theorem Memory.read_write_self {m : Memory} {a : Nat} (b : Byte) (hm : m.wf) : (m.write a b).read a = b := by
  induction m with
  | nil => unfold Memory.write; split <;> simp_all [Memory.read_cons]
  | cons c m ih =>
    have hp := (List.pairwise_cons.mp hm.1).1
    unfold Memory.write
    split
    · split
      · rename_i hlt hb
        rw [Memory.read_eq_zero (fun d hd => ?_), hb]
        rcases List.mem_cons.mp hd with rfl | hd
        · omega
        · have := hp d hd; omega
      · simp [Memory.read_cons]
    · split
      · split
        · rename_i heq hb
          rw [Memory.read_eq_zero (fun d hd => ?_), hb]
          have := hp d hd; omega
        · simp [Memory.read_cons]
      · rename_i hne
        simp [Memory.read_cons, Ne.symm hne, ih (Memory.wf_tail hm)]

theorem Memory.read_write {m : Memory} (a x : Nat) (b : Byte) (hm : m.wf) :
    (m.write a b).read x = if x = a then b else m.read x := by
  by_cases h : x = a
  · subst h; simp [Memory.read_write_self b hm]
  · simp [h, Memory.read_write_ne b h]

/-- A transfer of legal addresses keeps the canonical form. -/
theorem Memory.writeBytes_wf {m : Memory} {a : Nat} {bs : List Byte} (hm : m.wf)
    (ha : a + bs.length ≤ Config.memSize) : (m.writeBytes a bs).wf := by
  induction bs generalizing m a with
  | nil => exact hm
  | cons b bs ih =>
    simp only [List.length_cons] at ha
    exact ih (Memory.write_wf b hm (by omega)) (by omega)

theorem Memory.read_writeBytes_outside {m : Memory} {a x : Nat} {bs : List Byte}
    (h : x < a ∨ a + bs.length ≤ x) : (m.writeBytes a bs).read x = m.read x := by
  induction bs generalizing m a with
  | nil => rfl
  | cons b bs ih =>
    simp only [List.length_cons] at h
    rw [Memory.writeBytes, ih (by omega), Memory.read_write_ne b (by omega)]

theorem Memory.read_writeBytes_inside {m : Memory} {a k : Nat} {bs : List Byte} (hm : m.wf)
    (ha : a + bs.length ≤ Config.memSize) (hk : k < bs.length) : (m.writeBytes a bs).read (a + k) = bs[k] := by
  induction bs generalizing m a k with
  | nil => simp at hk
  | cons b bs ih =>
    simp only [List.length_cons] at ha hk
    have hw := Memory.write_wf (a := a) b hm (by omega)
    cases k with
    | zero =>
      rw [Memory.writeBytes, Memory.read_writeBytes_outside (by omega)]
      simp [Memory.read_write_self b hm]
    | succ k =>
      have := ih (a := a + 1) (k := k) hw (by omega) (by omega)
      rw [Memory.writeBytes, show a + (k + 1) = a + 1 + k by omega, this]
      simp

@[simp] theorem Memory.length_readBytes (m : Memory) (a n : Nat) : (m.readBytes a n).length = n := by
  induction n generalizing a with
  | zero => rfl
  | succ n ih => simp [Memory.readBytes, ih]

theorem Memory.getElem_readBytes (m : Memory) (a n k : Nat) (h : k < (m.readBytes a n).length) :
    (m.readBytes a n)[k] = m.read (a + k) := by
  induction n generalizing a k with
  | zero => simp [Memory.readBytes] at h
  | succ n ih =>
    cases k with
    | zero => simp [Memory.readBytes]
    | succ k =>
      simp only [Memory.readBytes, List.getElem_cons_succ]
      rw [ih, show a + 1 + k = a + (k + 1) by omega]

/-- The range check, said once (20_memory.md R57). -/
theorem firstIllegal_eq_none {a n : Nat} : firstIllegal a n = none ↔ n = 0 ∨ a + n ≤ Config.memSize := by
  unfold firstIllegal; split <;> simp_all

theorem firstIllegal_eq_some {a n bad : Nat} :
    firstIllegal a n = some bad ↔ ¬(n = 0 ∨ a + n ≤ Config.memSize) ∧ bad = max a Config.memSize := by
  unfold firstIllegal
  split
  · simp_all
  · rename_i h
    constructor
    · intro e; exact ⟨h, (Option.some.inj e).symm⟩
    · rintro ⟨-, rfl⟩; rfl

end Sys2Proof.Machine
end

