-- ==== Sys2Proof/Laws/State.lean ====
section
/-! SUPPORT. One lemma per field per update: what each named operation on a state changes and leaves. -/

namespace Sys2Proof.Machine

variable (s : State)

/-! ### Registers -/

@[simp] theorem State.readV_writeV_self (r : Reg) (b : Byte) : (s.writeV r b).readV r = b := by
  simp [State.readV, State.writeV]

theorem State.readV_writeV_ne {r q : Reg} (b : Byte) (h : q ≠ r) : (s.writeV r b).readV q = s.readV q := by
  have h' : r.val ≠ q.val := fun e => h (Fin.ext e.symm)
  simp [State.readV, State.writeV, h']

theorem State.readV_writeV (r q : Reg) (b : Byte) : (s.writeV r b).readV q = if q = r then b else s.readV q := by
  by_cases h : q = r
  · subst h; simp
  · simp [h, s.readV_writeV_ne b h]

/-! ### writeV -/

@[simp] theorem State.writeV_i (r : Reg) (b : Byte) : (s.writeV r b).i = s.i := rfl
@[simp] theorem State.writeV_pc (r : Reg) (b : Byte) : (s.writeV r b).pc = s.pc := rfl
@[simp] theorem State.writeV_sp (r : Reg) (b : Byte) : (s.writeV r b).sp = s.sp := rfl
@[simp] theorem State.writeV_stack (r : Reg) (b : Byte) : (s.writeV r b).stack = s.stack := rfl
@[simp] theorem State.writeV_dt (r : Reg) (b : Byte) : (s.writeV r b).dt = s.dt := rfl
@[simp] theorem State.writeV_st (r : Reg) (b : Byte) : (s.writeV r b).st = s.st := rfl
@[simp] theorem State.writeV_tick (r : Reg) (b : Byte) : (s.writeV r b).tick = s.tick := rfl
@[simp] theorem State.writeV_mem (r : Reg) (b : Byte) : (s.writeV r b).mem = s.mem := rfl
@[simp] theorem State.writeV_display (r : Reg) (b : Byte) : (s.writeV r b).display = s.display := rfl
@[simp] theorem State.writeV_held (r : Reg) (b : Byte) : (s.writeV r b).held = s.held := rfl
@[simp] theorem State.writeV_inputs (r : Reg) (b : Byte) : (s.writeV r b).inputs = s.inputs := rfl
@[simp] theorem State.writeV_calls (r : Reg) (b : Byte) : (s.writeV r b).calls = s.calls := rfl

/-! ### finishAt -/

@[simp] theorem State.finishAt_pc (p : Word) : (s.finishAt p).pc = p := rfl
@[simp] theorem State.finishAt_held (p : Word) : (s.finishAt p).held = false := rfl
@[simp] theorem State.finishAt_v (p : Word) : (s.finishAt p).v = s.v := rfl
@[simp] theorem State.finishAt_i (p : Word) : (s.finishAt p).i = s.i := rfl
@[simp] theorem State.finishAt_sp (p : Word) : (s.finishAt p).sp = s.sp := rfl
@[simp] theorem State.finishAt_stack (p : Word) : (s.finishAt p).stack = s.stack := rfl
@[simp] theorem State.finishAt_dt (p : Word) : (s.finishAt p).dt = s.dt := rfl
@[simp] theorem State.finishAt_st (p : Word) : (s.finishAt p).st = s.st := rfl
@[simp] theorem State.finishAt_tick (p : Word) : (s.finishAt p).tick = s.tick := rfl
@[simp] theorem State.finishAt_mem (p : Word) : (s.finishAt p).mem = s.mem := rfl
@[simp] theorem State.finishAt_display (p : Word) : (s.finishAt p).display = s.display := rfl
@[simp] theorem State.finishAt_inputs (p : Word) : (s.finishAt p).inputs = s.inputs := rfl
@[simp] theorem State.finishAt_calls (p : Word) : (s.finishAt p).calls = s.calls := rfl
@[simp] theorem State.finishAt_readV (p : Word) (q : Reg) : (s.finishAt p).readV q = s.readV q := rfl

/-! ### advance -/

@[simp] theorem State.advance_pc : s.advance.pc = s.pc + 2 := rfl
@[simp] theorem State.advance_held : s.advance.held = false := rfl
@[simp] theorem State.advance_v : s.advance.v = s.v := rfl
@[simp] theorem State.advance_i : s.advance.i = s.i := rfl
@[simp] theorem State.advance_sp : s.advance.sp = s.sp := rfl
@[simp] theorem State.advance_stack : s.advance.stack = s.stack := rfl
@[simp] theorem State.advance_dt : s.advance.dt = s.dt := rfl
@[simp] theorem State.advance_st : s.advance.st = s.st := rfl
@[simp] theorem State.advance_tick : s.advance.tick = s.tick := rfl
@[simp] theorem State.advance_mem : s.advance.mem = s.mem := rfl
@[simp] theorem State.advance_display : s.advance.display = s.display := rfl
@[simp] theorem State.advance_inputs : s.advance.inputs = s.inputs := rfl
@[simp] theorem State.advance_calls : s.advance.calls = s.calls := rfl
@[simp] theorem State.advance_readV (q : Reg) : s.advance.readV q = s.readV q := rfl

/-! ### skipIf -/

@[simp] theorem State.skipIf_pc (c : Bool) : (s.skipIf c).pc = if c then s.pc + 4 else s.pc + 2 := rfl
@[simp] theorem State.skipIf_held (c : Bool) : (s.skipIf c).held = false := rfl
@[simp] theorem State.skipIf_v (c : Bool) : (s.skipIf c).v = s.v := rfl
@[simp] theorem State.skipIf_i (c : Bool) : (s.skipIf c).i = s.i := rfl
@[simp] theorem State.skipIf_sp (c : Bool) : (s.skipIf c).sp = s.sp := rfl
@[simp] theorem State.skipIf_stack (c : Bool) : (s.skipIf c).stack = s.stack := rfl
@[simp] theorem State.skipIf_dt (c : Bool) : (s.skipIf c).dt = s.dt := rfl
@[simp] theorem State.skipIf_st (c : Bool) : (s.skipIf c).st = s.st := rfl
@[simp] theorem State.skipIf_tick (c : Bool) : (s.skipIf c).tick = s.tick := rfl
@[simp] theorem State.skipIf_mem (c : Bool) : (s.skipIf c).mem = s.mem := rfl
@[simp] theorem State.skipIf_display (c : Bool) : (s.skipIf c).display = s.display := rfl
@[simp] theorem State.skipIf_inputs (c : Bool) : (s.skipIf c).inputs = s.inputs := rfl
@[simp] theorem State.skipIf_calls (c : Bool) : (s.skipIf c).calls = s.calls := rfl
@[simp] theorem State.skipIf_readV (c : Bool) (q : Reg) : (s.skipIf c).readV q = s.readV q := rfl

/-! ### writeResultThenFlag -/

@[simp] theorem State.writeResultThenFlag_i (x : Reg) (a b : Byte) : (s.writeResultThenFlag x a b).i = s.i := rfl
@[simp] theorem State.writeResultThenFlag_pc (x : Reg) (a b : Byte) : (s.writeResultThenFlag x a b).pc = s.pc := rfl
@[simp] theorem State.writeResultThenFlag_sp (x : Reg) (a b : Byte) : (s.writeResultThenFlag x a b).sp = s.sp := rfl
@[simp] theorem State.writeResultThenFlag_stack (x : Reg) (a b : Byte) : (s.writeResultThenFlag x a b).stack = s.stack := rfl
@[simp] theorem State.writeResultThenFlag_dt (x : Reg) (a b : Byte) : (s.writeResultThenFlag x a b).dt = s.dt := rfl
@[simp] theorem State.writeResultThenFlag_st (x : Reg) (a b : Byte) : (s.writeResultThenFlag x a b).st = s.st := rfl
@[simp] theorem State.writeResultThenFlag_tick (x : Reg) (a b : Byte) : (s.writeResultThenFlag x a b).tick = s.tick := rfl
@[simp] theorem State.writeResultThenFlag_mem (x : Reg) (a b : Byte) : (s.writeResultThenFlag x a b).mem = s.mem := rfl
@[simp] theorem State.writeResultThenFlag_display (x : Reg) (a b : Byte) : (s.writeResultThenFlag x a b).display = s.display := rfl
@[simp] theorem State.writeResultThenFlag_held (x : Reg) (a b : Byte) : (s.writeResultThenFlag x a b).held = s.held := rfl
@[simp] theorem State.writeResultThenFlag_inputs (x : Reg) (a b : Byte) : (s.writeResultThenFlag x a b).inputs = s.inputs := rfl
@[simp] theorem State.writeResultThenFlag_calls (x : Reg) (a b : Byte) : (s.writeResultThenFlag x a b).calls = s.calls := rfl

/-! ### writeFlagThenResult -/

@[simp] theorem State.writeFlagThenResult_i (x : Reg) (a b : Byte) : (s.writeFlagThenResult x a b).i = s.i := rfl
@[simp] theorem State.writeFlagThenResult_pc (x : Reg) (a b : Byte) : (s.writeFlagThenResult x a b).pc = s.pc := rfl
@[simp] theorem State.writeFlagThenResult_sp (x : Reg) (a b : Byte) : (s.writeFlagThenResult x a b).sp = s.sp := rfl
@[simp] theorem State.writeFlagThenResult_stack (x : Reg) (a b : Byte) : (s.writeFlagThenResult x a b).stack = s.stack := rfl
@[simp] theorem State.writeFlagThenResult_dt (x : Reg) (a b : Byte) : (s.writeFlagThenResult x a b).dt = s.dt := rfl
@[simp] theorem State.writeFlagThenResult_st (x : Reg) (a b : Byte) : (s.writeFlagThenResult x a b).st = s.st := rfl
@[simp] theorem State.writeFlagThenResult_tick (x : Reg) (a b : Byte) : (s.writeFlagThenResult x a b).tick = s.tick := rfl
@[simp] theorem State.writeFlagThenResult_mem (x : Reg) (a b : Byte) : (s.writeFlagThenResult x a b).mem = s.mem := rfl
@[simp] theorem State.writeFlagThenResult_display (x : Reg) (a b : Byte) : (s.writeFlagThenResult x a b).display = s.display := rfl
@[simp] theorem State.writeFlagThenResult_held (x : Reg) (a b : Byte) : (s.writeFlagThenResult x a b).held = s.held := rfl
@[simp] theorem State.writeFlagThenResult_inputs (x : Reg) (a b : Byte) : (s.writeFlagThenResult x a b).inputs = s.inputs := rfl
@[simp] theorem State.writeFlagThenResult_calls (x : Reg) (a b : Byte) : (s.writeFlagThenResult x a b).calls = s.calls := rfl

/-! ### callOut -/

@[simp] theorem State.callOut_calls (c : Call) : (s.callOut c).calls = s.calls ++ [c] := rfl
@[simp] theorem State.callOut_v (c : Call) : (s.callOut c).v = s.v := rfl
@[simp] theorem State.callOut_i (c : Call) : (s.callOut c).i = s.i := rfl
@[simp] theorem State.callOut_pc (c : Call) : (s.callOut c).pc = s.pc := rfl
@[simp] theorem State.callOut_sp (c : Call) : (s.callOut c).sp = s.sp := rfl
@[simp] theorem State.callOut_stack (c : Call) : (s.callOut c).stack = s.stack := rfl
@[simp] theorem State.callOut_dt (c : Call) : (s.callOut c).dt = s.dt := rfl
@[simp] theorem State.callOut_st (c : Call) : (s.callOut c).st = s.st := rfl
@[simp] theorem State.callOut_tick (c : Call) : (s.callOut c).tick = s.tick := rfl
@[simp] theorem State.callOut_mem (c : Call) : (s.callOut c).mem = s.mem := rfl
@[simp] theorem State.callOut_display (c : Call) : (s.callOut c).display = s.display := rfl
@[simp] theorem State.callOut_held (c : Call) : (s.callOut c).held = s.held := rfl
@[simp] theorem State.callOut_inputs (c : Call) : (s.callOut c).inputs = s.inputs := rfl
@[simp] theorem State.callOut_readV (c : Call) (q : Reg) : (s.callOut c).readV q = s.readV q := rfl

/-! ### askRandom -/

@[simp] theorem State.askRandom_calls : s.askRandom.calls = s.calls ++ [.nextByte] := rfl
@[simp] theorem State.askRandom_v : s.askRandom.v = s.v := rfl
@[simp] theorem State.askRandom_i : s.askRandom.i = s.i := rfl
@[simp] theorem State.askRandom_pc : s.askRandom.pc = s.pc := rfl
@[simp] theorem State.askRandom_sp : s.askRandom.sp = s.sp := rfl
@[simp] theorem State.askRandom_stack : s.askRandom.stack = s.stack := rfl
@[simp] theorem State.askRandom_dt : s.askRandom.dt = s.dt := rfl
@[simp] theorem State.askRandom_st : s.askRandom.st = s.st := rfl
@[simp] theorem State.askRandom_tick : s.askRandom.tick = s.tick := rfl
@[simp] theorem State.askRandom_mem : s.askRandom.mem = s.mem := rfl
@[simp] theorem State.askRandom_display : s.askRandom.display = s.display := rfl
@[simp] theorem State.askRandom_held : s.askRandom.held = s.held := rfl
@[simp] theorem State.askRandom_readV (q : Reg) : s.askRandom.readV q = s.readV q := rfl

/-! ### askPoll -/

@[simp] theorem State.askPoll_calls : s.askPoll.calls = s.calls ++ [.poll] := rfl
@[simp] theorem State.askPoll_v : s.askPoll.v = s.v := rfl
@[simp] theorem State.askPoll_i : s.askPoll.i = s.i := rfl
@[simp] theorem State.askPoll_pc : s.askPoll.pc = s.pc := rfl
@[simp] theorem State.askPoll_sp : s.askPoll.sp = s.sp := rfl
@[simp] theorem State.askPoll_stack : s.askPoll.stack = s.stack := rfl
@[simp] theorem State.askPoll_dt : s.askPoll.dt = s.dt := rfl
@[simp] theorem State.askPoll_st : s.askPoll.st = s.st := rfl
@[simp] theorem State.askPoll_tick : s.askPoll.tick = s.tick := rfl
@[simp] theorem State.askPoll_mem : s.askPoll.mem = s.mem := rfl
@[simp] theorem State.askPoll_display : s.askPoll.display = s.display := rfl
@[simp] theorem State.askPoll_held : s.askPoll.held = s.held := rfl
@[simp] theorem State.askPoll_readV (q : Reg) : s.askPoll.readV q = s.readV q := rfl

/-! ### tookWait -/

@[simp] theorem State.tookWait_v : s.tookWait.v = s.v := rfl
@[simp] theorem State.tookWait_i : s.tookWait.i = s.i := rfl
@[simp] theorem State.tookWait_pc : s.tookWait.pc = s.pc := rfl
@[simp] theorem State.tookWait_sp : s.tookWait.sp = s.sp := rfl
@[simp] theorem State.tookWait_stack : s.tookWait.stack = s.stack := rfl
@[simp] theorem State.tookWait_dt : s.tookWait.dt = s.dt := rfl
@[simp] theorem State.tookWait_st : s.tookWait.st = s.st := rfl
@[simp] theorem State.tookWait_tick : s.tookWait.tick = s.tick := rfl
@[simp] theorem State.tookWait_mem : s.tookWait.mem = s.mem := rfl
@[simp] theorem State.tookWait_display : s.tookWait.display = s.display := rfl
@[simp] theorem State.tookWait_held : s.tookWait.held = s.held := rfl
@[simp] theorem State.tookWait_calls : s.tookWait.calls = s.calls := rfl
@[simp] theorem State.tookWait_readV (q : Reg) : s.tookWait.readV q = s.readV q := rfl

/-! ### hold -/

@[simp] theorem State.hold_held : s.hold.held = true := rfl
@[simp] theorem State.hold_inputs : s.hold.inputs = s.tookWait.inputs := rfl
@[simp] theorem State.hold_v : s.hold.v = s.v := rfl
@[simp] theorem State.hold_i : s.hold.i = s.i := rfl
@[simp] theorem State.hold_pc : s.hold.pc = s.pc := rfl
@[simp] theorem State.hold_sp : s.hold.sp = s.sp := rfl
@[simp] theorem State.hold_stack : s.hold.stack = s.stack := rfl
@[simp] theorem State.hold_dt : s.hold.dt = s.dt := rfl
@[simp] theorem State.hold_st : s.hold.st = s.st := rfl
@[simp] theorem State.hold_tick : s.hold.tick = s.tick := rfl
@[simp] theorem State.hold_mem : s.hold.mem = s.mem := rfl
@[simp] theorem State.hold_display : s.hold.display = s.display := rfl
@[simp] theorem State.hold_calls : s.hold.calls = s.calls := rfl
@[simp] theorem State.hold_readV (q : Reg) : s.hold.readV q = s.readV q := rfl

/-! ### popped -/

@[simp] theorem State.popped_v : s.popped.v = s.v := rfl
@[simp] theorem State.popped_i : s.popped.i = s.i := rfl
@[simp] theorem State.popped_pc : s.popped.pc = s.pc := rfl
@[simp] theorem State.popped_stack : s.popped.stack = s.stack := rfl
@[simp] theorem State.popped_dt : s.popped.dt = s.dt := rfl
@[simp] theorem State.popped_st : s.popped.st = s.st := rfl
@[simp] theorem State.popped_tick : s.popped.tick = s.tick := rfl
@[simp] theorem State.popped_mem : s.popped.mem = s.mem := rfl
@[simp] theorem State.popped_display : s.popped.display = s.display := rfl
@[simp] theorem State.popped_held : s.popped.held = s.held := rfl
@[simp] theorem State.popped_inputs : s.popped.inputs = s.inputs := rfl
@[simp] theorem State.popped_calls : s.popped.calls = s.calls := rfl
@[simp] theorem State.popped_readV (q : Reg) : s.popped.readV q = s.readV q := rfl

/-! ### storeBytes -/

@[simp] theorem State.storeBytes_mem (bs : List Byte) :
    (s.storeBytes bs).mem = s.mem.writeBytes s.transferBase bs := rfl
@[simp] theorem State.storeBytes_v (bs : List Byte) : (s.storeBytes bs).v = s.v := rfl
@[simp] theorem State.storeBytes_i (bs : List Byte) : (s.storeBytes bs).i = s.i := rfl
@[simp] theorem State.storeBytes_pc (bs : List Byte) : (s.storeBytes bs).pc = s.pc := rfl
@[simp] theorem State.storeBytes_sp (bs : List Byte) : (s.storeBytes bs).sp = s.sp := rfl
@[simp] theorem State.storeBytes_stack (bs : List Byte) : (s.storeBytes bs).stack = s.stack := rfl
@[simp] theorem State.storeBytes_dt (bs : List Byte) : (s.storeBytes bs).dt = s.dt := rfl
@[simp] theorem State.storeBytes_st (bs : List Byte) : (s.storeBytes bs).st = s.st := rfl
@[simp] theorem State.storeBytes_tick (bs : List Byte) : (s.storeBytes bs).tick = s.tick := rfl
@[simp] theorem State.storeBytes_display (bs : List Byte) : (s.storeBytes bs).display = s.display := rfl
@[simp] theorem State.storeBytes_held (bs : List Byte) : (s.storeBytes bs).held = s.held := rfl
@[simp] theorem State.storeBytes_inputs (bs : List Byte) : (s.storeBytes bs).inputs = s.inputs := rfl
@[simp] theorem State.storeBytes_calls (bs : List Byte) : (s.storeBytes bs).calls = s.calls := rfl
@[simp] theorem State.storeBytes_readV (bs : List Byte) (q : Reg) : (s.storeBytes bs).readV q = s.readV q := rfl

/-! ### hostSkip -/

@[simp] theorem State.hostSkip_pc : s.hostSkip.pc = s.pc + 2 := rfl
@[simp] theorem State.hostSkip_v : s.hostSkip.v = s.v := rfl
@[simp] theorem State.hostSkip_i : s.hostSkip.i = s.i := rfl
@[simp] theorem State.hostSkip_sp : s.hostSkip.sp = s.sp := rfl
@[simp] theorem State.hostSkip_stack : s.hostSkip.stack = s.stack := rfl
@[simp] theorem State.hostSkip_dt : s.hostSkip.dt = s.dt := rfl
@[simp] theorem State.hostSkip_st : s.hostSkip.st = s.st := rfl
@[simp] theorem State.hostSkip_tick : s.hostSkip.tick = s.tick := rfl
@[simp] theorem State.hostSkip_mem : s.hostSkip.mem = s.mem := rfl
@[simp] theorem State.hostSkip_display : s.hostSkip.display = s.display := rfl
@[simp] theorem State.hostSkip_held : s.hostSkip.held = s.held := rfl
@[simp] theorem State.hostSkip_inputs : s.hostSkip.inputs = s.inputs := rfl
@[simp] theorem State.hostSkip_calls : s.hostSkip.calls = s.calls := rfl
@[simp] theorem State.hostSkip_readV (q : Reg) : s.hostSkip.readV q = s.readV q := rfl

/-! ### setI -/

@[simp] theorem State.setI_i (w : Word) : (s.setI w).i = w := rfl
@[simp] theorem State.setI_v (w : Word) : (s.setI w).v = s.v := rfl
@[simp] theorem State.setI_pc (w : Word) : (s.setI w).pc = s.pc := rfl
@[simp] theorem State.setI_sp (w : Word) : (s.setI w).sp = s.sp := rfl
@[simp] theorem State.setI_stack (w : Word) : (s.setI w).stack = s.stack := rfl
@[simp] theorem State.setI_dt (w : Word) : (s.setI w).dt = s.dt := rfl
@[simp] theorem State.setI_st (w : Word) : (s.setI w).st = s.st := rfl
@[simp] theorem State.setI_tick (w : Word) : (s.setI w).tick = s.tick := rfl
@[simp] theorem State.setI_mem (w : Word) : (s.setI w).mem = s.mem := rfl
@[simp] theorem State.setI_display (w : Word) : (s.setI w).display = s.display := rfl
@[simp] theorem State.setI_held (w : Word) : (s.setI w).held = s.held := rfl
@[simp] theorem State.setI_inputs (w : Word) : (s.setI w).inputs = s.inputs := rfl
@[simp] theorem State.setI_calls (w : Word) : (s.setI w).calls = s.calls := rfl
@[simp] theorem State.setI_readV (w : Word) (q : Reg) : (s.setI w).readV q = s.readV q := rfl

/-! ### setDt -/

@[simp] theorem State.setDt_dt (b : Byte) : (s.setDt b).dt = b := rfl
@[simp] theorem State.setDt_v (b : Byte) : (s.setDt b).v = s.v := rfl
@[simp] theorem State.setDt_i (b : Byte) : (s.setDt b).i = s.i := rfl
@[simp] theorem State.setDt_pc (b : Byte) : (s.setDt b).pc = s.pc := rfl
@[simp] theorem State.setDt_sp (b : Byte) : (s.setDt b).sp = s.sp := rfl
@[simp] theorem State.setDt_stack (b : Byte) : (s.setDt b).stack = s.stack := rfl
@[simp] theorem State.setDt_st (b : Byte) : (s.setDt b).st = s.st := rfl
@[simp] theorem State.setDt_tick (b : Byte) : (s.setDt b).tick = s.tick := rfl
@[simp] theorem State.setDt_mem (b : Byte) : (s.setDt b).mem = s.mem := rfl
@[simp] theorem State.setDt_display (b : Byte) : (s.setDt b).display = s.display := rfl
@[simp] theorem State.setDt_held (b : Byte) : (s.setDt b).held = s.held := rfl
@[simp] theorem State.setDt_inputs (b : Byte) : (s.setDt b).inputs = s.inputs := rfl
@[simp] theorem State.setDt_calls (b : Byte) : (s.setDt b).calls = s.calls := rfl
@[simp] theorem State.setDt_readV (b : Byte) (q : Reg) : (s.setDt b).readV q = s.readV q := rfl

/-! ### setSt -/

@[simp] theorem State.setSt_st (b : Byte) : (s.setSt b).st = b := rfl
@[simp] theorem State.setSt_v (b : Byte) : (s.setSt b).v = s.v := rfl
@[simp] theorem State.setSt_i (b : Byte) : (s.setSt b).i = s.i := rfl
@[simp] theorem State.setSt_pc (b : Byte) : (s.setSt b).pc = s.pc := rfl
@[simp] theorem State.setSt_sp (b : Byte) : (s.setSt b).sp = s.sp := rfl
@[simp] theorem State.setSt_stack (b : Byte) : (s.setSt b).stack = s.stack := rfl
@[simp] theorem State.setSt_dt (b : Byte) : (s.setSt b).dt = s.dt := rfl
@[simp] theorem State.setSt_tick (b : Byte) : (s.setSt b).tick = s.tick := rfl
@[simp] theorem State.setSt_mem (b : Byte) : (s.setSt b).mem = s.mem := rfl
@[simp] theorem State.setSt_display (b : Byte) : (s.setSt b).display = s.display := rfl
@[simp] theorem State.setSt_held (b : Byte) : (s.setSt b).held = s.held := rfl
@[simp] theorem State.setSt_inputs (b : Byte) : (s.setSt b).inputs = s.inputs := rfl
@[simp] theorem State.setSt_calls (b : Byte) : (s.setSt b).calls = s.calls := rfl
@[simp] theorem State.setSt_readV (b : Byte) (q : Reg) : (s.setSt b).readV q = s.readV q := rfl

/-! ### push -/

@[simp] theorem State.push_v (w : Word) : (s.push w).v = s.v := by unfold State.push; split <;> rfl
@[simp] theorem State.push_i (w : Word) : (s.push w).i = s.i := by unfold State.push; split <;> rfl
@[simp] theorem State.push_pc (w : Word) : (s.push w).pc = s.pc := by unfold State.push; split <;> rfl
@[simp] theorem State.push_dt (w : Word) : (s.push w).dt = s.dt := by unfold State.push; split <;> rfl
@[simp] theorem State.push_st (w : Word) : (s.push w).st = s.st := by unfold State.push; split <;> rfl
@[simp] theorem State.push_tick (w : Word) : (s.push w).tick = s.tick := by unfold State.push; split <;> rfl
@[simp] theorem State.push_mem (w : Word) : (s.push w).mem = s.mem := by unfold State.push; split <;> rfl
@[simp] theorem State.push_display (w : Word) : (s.push w).display = s.display := by unfold State.push; split <;> rfl
@[simp] theorem State.push_held (w : Word) : (s.push w).held = s.held := by unfold State.push; split <;> rfl
@[simp] theorem State.push_inputs (w : Word) : (s.push w).inputs = s.inputs := by unfold State.push; split <;> rfl
@[simp] theorem State.push_calls (w : Word) : (s.push w).calls = s.calls := by unfold State.push; split <;> rfl
@[simp] theorem State.push_readV (w : Word) (q : Reg) : (s.push w).readV q = s.readV q := by
  unfold State.push; split <;> rfl

theorem State.push_sp (w : Word) (h : s.sp.val < 16) : (s.push w).sp.val = s.sp.val + 1 := by
  simp [State.push, h]

theorem State.push_stack (w : Word) (h : s.sp.val < 16) : (s.push w).stack = s.stack.set s.sp.val w h := by
  simp [State.push, h]

theorem State.popped_sp : s.popped.sp.val = s.sp.val - 1 := rfl

/-! ### clearDisplay -/

@[simp] theorem State.clearDisplay_calls : s.clearDisplay.calls = s.calls ++ [.clear] := by
  unfold State.clearDisplay; split <;> rfl
@[simp] theorem State.clearDisplay_v : s.clearDisplay.v = s.v := by unfold State.clearDisplay; split <;> rfl
@[simp] theorem State.clearDisplay_i : s.clearDisplay.i = s.i := by unfold State.clearDisplay; split <;> rfl
@[simp] theorem State.clearDisplay_pc : s.clearDisplay.pc = s.pc := by unfold State.clearDisplay; split <;> rfl
@[simp] theorem State.clearDisplay_sp : s.clearDisplay.sp = s.sp := by unfold State.clearDisplay; split <;> rfl
@[simp] theorem State.clearDisplay_stack : s.clearDisplay.stack = s.stack := by unfold State.clearDisplay; split <;> rfl
@[simp] theorem State.clearDisplay_dt : s.clearDisplay.dt = s.dt := by unfold State.clearDisplay; split <;> rfl
@[simp] theorem State.clearDisplay_st : s.clearDisplay.st = s.st := by unfold State.clearDisplay; split <;> rfl
@[simp] theorem State.clearDisplay_tick : s.clearDisplay.tick = s.tick := by unfold State.clearDisplay; split <;> rfl
@[simp] theorem State.clearDisplay_mem : s.clearDisplay.mem = s.mem := by unfold State.clearDisplay; split <;> rfl
@[simp] theorem State.clearDisplay_held : s.clearDisplay.held = s.held := by unfold State.clearDisplay; split <;> rfl
@[simp] theorem State.clearDisplay_inputs : s.clearDisplay.inputs = s.inputs := by unfold State.clearDisplay; split <;> rfl
@[simp] theorem State.clearDisplay_readV (q : Reg) : s.clearDisplay.readV q = s.readV q := by
  unfold State.clearDisplay; split <;> rfl

/-! ### askDraw -/

@[simp] theorem State.askDraw_calls (x y : Byte) (rows : List Byte) : (s.askDraw x y rows).calls = s.calls ++ [.draw x y rows] := by
  unfold State.askDraw; split <;> rfl
@[simp] theorem State.askDraw_v (x y : Byte) (rows : List Byte) : (s.askDraw x y rows).v = s.v := by unfold State.askDraw; split <;> rfl
@[simp] theorem State.askDraw_i (x y : Byte) (rows : List Byte) : (s.askDraw x y rows).i = s.i := by unfold State.askDraw; split <;> rfl
@[simp] theorem State.askDraw_pc (x y : Byte) (rows : List Byte) : (s.askDraw x y rows).pc = s.pc := by unfold State.askDraw; split <;> rfl
@[simp] theorem State.askDraw_sp (x y : Byte) (rows : List Byte) : (s.askDraw x y rows).sp = s.sp := by unfold State.askDraw; split <;> rfl
@[simp] theorem State.askDraw_stack (x y : Byte) (rows : List Byte) : (s.askDraw x y rows).stack = s.stack := by unfold State.askDraw; split <;> rfl
@[simp] theorem State.askDraw_dt (x y : Byte) (rows : List Byte) : (s.askDraw x y rows).dt = s.dt := by unfold State.askDraw; split <;> rfl
@[simp] theorem State.askDraw_st (x y : Byte) (rows : List Byte) : (s.askDraw x y rows).st = s.st := by unfold State.askDraw; split <;> rfl
@[simp] theorem State.askDraw_tick (x y : Byte) (rows : List Byte) : (s.askDraw x y rows).tick = s.tick := by unfold State.askDraw; split <;> rfl
@[simp] theorem State.askDraw_mem (x y : Byte) (rows : List Byte) : (s.askDraw x y rows).mem = s.mem := by unfold State.askDraw; split <;> rfl
@[simp] theorem State.askDraw_held (x y : Byte) (rows : List Byte) : (s.askDraw x y rows).held = s.held := by unfold State.askDraw; split <;> rfl
@[simp] theorem State.askDraw_readV (x y : Byte) (rows : List Byte) (q : Reg) : (s.askDraw x y rows).readV q = s.readV q := by
  unfold State.askDraw; split <;> rfl

end Sys2Proof.Machine
end

