-- ==== Sys2Proof/Laws/Ops.lean ====
section
/-! SUPPORT. One lemma per shared operation that says once what it can do: the range check, the end of a cycle, the
timers, the register transfers, and what a meaning and a step can do to each part of the state. -/

namespace Sys2Proof.Machine

/-! ### Range check and cycle end -/

theorem checkRange_legal {a n : Nat} (s : State) (k : Result) (h : n = 0 ∨ a + n ≤ Config.memSize) :
    checkRange a n s k = k := by
  simp only [checkRange, firstIllegal_eq_none.mpr h]

theorem checkRange_illegal {a n : Nat} (s : State) (k : Result) (h : ¬(n = 0 ∨ a + n ≤ Config.memSize)) :
    checkRange a n s k = .fault (.memoryOutOfRange (max a Config.memSize)) := by
  simp only [checkRange, firstIllegal_eq_some.mpr ⟨h, rfl⟩, raiseFault]

theorem checkRange_next {a n : Nat} {s t : State} {k : Result} (h : checkRange a n s k = .next t) :
    (n = 0 ∨ a + n ≤ Config.memSize) ∧ k = .next t := by
  by_cases hr : n = 0 ∨ a + n ≤ Config.memSize
  · exact ⟨hr, by rwa [checkRange_legal s k hr] at h⟩
  · rw [checkRange_illegal s k hr] at h; cases h

theorem checkRange_fault {a n : Nat} {s : State} {k : Result} {f : Fault} (h : checkRange a n s k = .fault f) :
    (¬(n = 0 ∨ a + n ≤ Config.memSize) ∧ f = .memoryOutOfRange (max a Config.memSize)) ∨ k = .fault f := by
  by_cases hr : n = 0 ∨ a + n ≤ Config.memSize
  · exact .inr (by rwa [checkRange_legal s k hr] at h)
  · rw [checkRange_illegal s k hr] at h; cases h; exact .inl ⟨hr, rfl⟩

theorem endCycle_next {r : Result} {t : State} (h : endCycle r = .next t) :
    ∃ u, r = .next u ∧ t = if u.held then u else u.timerStep := by
  cases r with
  | next u => exact ⟨u, rfl, by simpa [endCycle] using h.symm⟩
  | fault f => cases h
  | refused f => cases h

theorem endCycle_fault {r : Result} {f : Fault} (h : endCycle r = .fault f) : r = .fault f := by
  cases r <;> simp_all [endCycle]

/-- What a step can do when it answers a next state. -/
theorem step_next {s t : State} (h : step s = .next t) :
    s.pc.toNat + 2 ≤ Config.memSize ∧ ∃ u, exec s.fetched s = .next u ∧ t = if u.held then u else u.timerStep := by
  obtain ⟨hr, hk⟩ := checkRange_next h
  exact ⟨by omega, endCycle_next hk⟩

theorem step_legal {s : State} (h : s.pc.toNat + 2 ≤ Config.memSize) : step s = endCycle (exec s.fetched s) :=
  checkRange_legal s _ (.inr h)

theorem step_fault {s : State} {f : Fault} (h : step s = .fault f) :
    (Config.memSize < s.pc.toNat + 2 ∧ f = .memoryOutOfRange (max s.pc.toNat Config.memSize)) ∨
      (s.pc.toNat + 2 ≤ Config.memSize ∧ exec s.fetched s = .fault f) := by
  by_cases hr : s.pc.toNat + 2 ≤ Config.memSize
  · rw [step_legal hr] at h; exact .inr ⟨hr, endCycle_fault h⟩
  · rw [step, checkRange_illegal s _ (by omega)] at h; cases h; exact .inl ⟨by omega, rfl⟩

/-! ### Timers -/

/-- Saturating subtraction is subtraction of naturals (60_exceptions.md R215: "max(a - 8, 0)"). -/
theorem satSub8_toNat (a : Byte) : (satSub8 a Config.timerStep).toNat = a.toNat - 8 := by
  have ha := a.isLt
  have hr : (a - 8#8).toNat = (2 ^ 8 - 8 + a.toNat) % 2 ^ 8 := by simp [BitVec.toNat_sub]
  unfold satSub8
  simp only [Config.timerStep, BitVec.lt_def]
  split
  · simp only [BitVec.ofNat_eq_ofNat, hr] at *; simp; omega
  · simp only [BitVec.ofNat_eq_ofNat, hr] at *; omega

@[simp] theorem State.fireTimers_dt (s : State) : s.fireTimers.dt = satSub8 s.dt Config.timerStep := by
  unfold State.fireTimers; simp only; split <;> rfl

@[simp] theorem State.fireTimers_st (s : State) : s.fireTimers.st = satSub8 s.st Config.timerStep := by
  unfold State.fireTimers; simp only; split <;> rfl

@[simp] theorem State.timerStep_tick (s : State) : s.timerStep.tick = s.tick + 1 := by
  unfold State.timerStep State.fireTimers; simp only; split <;> [split; skip] <;> rfl

@[simp] theorem State.timerStep_v (s : State) : s.timerStep.v = s.v := by
  unfold State.timerStep State.fireTimers; simp only; split <;> [split; skip] <;> rfl

@[simp] theorem State.timerStep_i (s : State) : s.timerStep.i = s.i := by
  unfold State.timerStep State.fireTimers; simp only; split <;> [split; skip] <;> rfl

@[simp] theorem State.timerStep_pc (s : State) : s.timerStep.pc = s.pc := by
  unfold State.timerStep State.fireTimers; simp only; split <;> [split; skip] <;> rfl

@[simp] theorem State.timerStep_sp (s : State) : s.timerStep.sp = s.sp := by
  unfold State.timerStep State.fireTimers; simp only; split <;> [split; skip] <;> rfl

@[simp] theorem State.timerStep_stack (s : State) : s.timerStep.stack = s.stack := by
  unfold State.timerStep State.fireTimers; simp only; split <;> [split; skip] <;> rfl

@[simp] theorem State.timerStep_mem (s : State) : s.timerStep.mem = s.mem := by
  unfold State.timerStep State.fireTimers; simp only; split <;> [split; skip] <;> rfl

@[simp] theorem State.timerStep_display (s : State) : s.timerStep.display = s.display := by
  unfold State.timerStep State.fireTimers; simp only; split <;> [split; skip] <;> rfl

@[simp] theorem State.timerStep_held (s : State) : s.timerStep.held = s.held := by
  unfold State.timerStep State.fireTimers; simp only; split <;> [split; skip] <;> rfl

@[simp] theorem State.timerStep_inputs (s : State) : s.timerStep.inputs = s.inputs := by
  unfold State.timerStep State.fireTimers; simp only; split <;> [split; skip] <;> rfl

@[simp] theorem State.timerStep_readV (s : State) (q : Reg) : s.timerStep.readV q = s.readV q := by
  simp [State.readV]

theorem State.timerStep_dt (s : State) :
    s.timerStep.dt = if s.tick = 7 then satSub8 s.dt Config.timerStep else s.dt := by
  have h7 : s.tick + 1#3 = 0#3 ↔ s.tick = 7#3 := by generalize s.tick = k; revert k; decide
  unfold State.timerStep
  by_cases h : s.tick = 7#3 <;> simp [h7, h]

theorem State.timerStep_st (s : State) :
    s.timerStep.st = if s.tick = 7 then satSub8 s.st Config.timerStep else s.st := by
  have h7 : s.tick + 1#3 = 0#3 ↔ s.tick = 7#3 := by generalize s.tick = k; revert k; decide
  unfold State.timerStep
  by_cases h : s.tick = 7#3 <;> simp [h7, h]

/-- What the timer step signals: `tone_end`, exactly when the firing takes `ST` from nonzero to 0 (60_exceptions.md
R216). -/
theorem State.timerStep_calls (s : State) :
    s.timerStep.calls =
      s.calls ++ if s.tick.toNat = 7 ∧ 0 < s.st.toNat ∧ s.st.toNat ≤ 8 then [.toneEnd] else [] := by
  have h7 : s.tick + 1#3 = 0#3 ↔ s.tick.toNat = 7 := by generalize s.tick = k; revert k; decide
  have hz : satSub8 s.st 8#8 = 0#8 ↔ s.st.toNat ≤ 8 := by
    have := satSub8_toNat s.st
    simp only [Config.timerStep, BitVec.ofNat_eq_ofNat] at this
    rw [← BitVec.toNat_inj, this]; simp; omega
  have hn : s.st ≠ 0#8 ↔ 0 < s.st.toNat := by rw [Ne, ← BitVec.toNat_inj]; simp [Nat.pos_iff_ne_zero]
  unfold State.timerStep State.fireTimers
  simp only [BitVec.ofNat_eq_ofNat]
  by_cases a : s.tick.toNat = 7
  · rw [if_pos (h7.mpr a)]
    simp only [hz, hn, a, true_and]
    split <;> simp [State.callOut]
  · rw [if_neg (mt h7.mp a), if_neg (fun h => a h.1)]; simp

/-! ### Register transfers -/

theorem mem_regsUpTo {x r : Reg} : r ∈ regsUpTo x ↔ r ≤ x := by
  have : r ∈ ([0, 1, 2, 3, 4, 5, 6, 7, 8, 9, 10, 11, 12, 13, 14, 15] : List Reg) := by revert r; decide
  simp only [regsUpTo, List.mem_filter, this, true_and, decide_eq_true_eq]

theorem length_regsUpTo (x : Reg) : (regsUpTo x).length = x.val + 1 := by revert x; decide

theorem getElem_regsUpTo (x r : Reg) (h : r.val < (regsUpTo x).length) : (regsUpTo x)[r.val] = r := by
  revert x r; decide

@[simp] theorem loadRegs_i (m : Memory) (a : Nat) (rs : List Reg) (s : State) : (loadRegs m a rs s).i = s.i := by
  induction rs generalizing s with
  | nil => rfl
  | cons r rs ih => simp [loadRegs, ih]

@[simp] theorem loadRegs_pc (m : Memory) (a : Nat) (rs : List Reg) (s : State) : (loadRegs m a rs s).pc = s.pc := by
  induction rs generalizing s with
  | nil => rfl
  | cons r rs ih => simp [loadRegs, ih]

@[simp] theorem loadRegs_sp (m : Memory) (a : Nat) (rs : List Reg) (s : State) : (loadRegs m a rs s).sp = s.sp := by
  induction rs generalizing s with
  | nil => rfl
  | cons r rs ih => simp [loadRegs, ih]

@[simp] theorem loadRegs_stack (m : Memory) (a : Nat) (rs : List Reg) (s : State) : (loadRegs m a rs s).stack = s.stack := by
  induction rs generalizing s with
  | nil => rfl
  | cons r rs ih => simp [loadRegs, ih]

@[simp] theorem loadRegs_dt (m : Memory) (a : Nat) (rs : List Reg) (s : State) : (loadRegs m a rs s).dt = s.dt := by
  induction rs generalizing s with
  | nil => rfl
  | cons r rs ih => simp [loadRegs, ih]

@[simp] theorem loadRegs_st (m : Memory) (a : Nat) (rs : List Reg) (s : State) : (loadRegs m a rs s).st = s.st := by
  induction rs generalizing s with
  | nil => rfl
  | cons r rs ih => simp [loadRegs, ih]

@[simp] theorem loadRegs_tick (m : Memory) (a : Nat) (rs : List Reg) (s : State) : (loadRegs m a rs s).tick = s.tick := by
  induction rs generalizing s with
  | nil => rfl
  | cons r rs ih => simp [loadRegs, ih]

@[simp] theorem loadRegs_mem (m : Memory) (a : Nat) (rs : List Reg) (s : State) : (loadRegs m a rs s).mem = s.mem := by
  induction rs generalizing s with
  | nil => rfl
  | cons r rs ih => simp [loadRegs, ih]

@[simp] theorem loadRegs_display (m : Memory) (a : Nat) (rs : List Reg) (s : State) : (loadRegs m a rs s).display = s.display := by
  induction rs generalizing s with
  | nil => rfl
  | cons r rs ih => simp [loadRegs, ih]

@[simp] theorem loadRegs_held (m : Memory) (a : Nat) (rs : List Reg) (s : State) : (loadRegs m a rs s).held = s.held := by
  induction rs generalizing s with
  | nil => rfl
  | cons r rs ih => simp [loadRegs, ih]

@[simp] theorem loadRegs_inputs (m : Memory) (a : Nat) (rs : List Reg) (s : State) : (loadRegs m a rs s).inputs = s.inputs := by
  induction rs generalizing s with
  | nil => rfl
  | cons r rs ih => simp [loadRegs, ih]

@[simp] theorem loadRegs_calls (m : Memory) (a : Nat) (rs : List Reg) (s : State) : (loadRegs m a rs s).calls = s.calls := by
  induction rs generalizing s with
  | nil => rfl
  | cons r rs ih => simp [loadRegs, ih]

/-- The registers after a block load, by membership in the transfer. -/
theorem loadRegs_readV (m : Memory) (a : Nat) (rs : List Reg) (s : State) (q : Reg) :
    (loadRegs m a rs s).readV q = if q ∈ rs then m.read (a + q.val) else s.readV q := by
  induction rs generalizing s with
  | nil => simp [loadRegs]
  | cons r rs ih =>
    rw [loadRegs, ih]
    by_cases h : q ∈ rs
    · simp [h]
    · by_cases e : q = r
      · subst e; simp [h]
      · simp [h, e, s.readV_writeV_ne _ e]

/-! ### The answers: the listed one, or the composed display's -/

theorem randomAnswer_listed {s : State} {b : Byte} (h : s.inputs.random.head? = some b) : s.randomAnswer = b := by
  obtain ⟨l, e⟩ := List.head?_eq_some_iff.mp h
  simp [State.randomAnswer, e]

theorem pollAnswer_listed {s : State} {k : Keys} (h : s.inputs.polls.head? = some k) : s.pollAnswer = k := by
  obtain ⟨l, e⟩ := List.head?_eq_some_iff.mp h
  simp [State.pollAnswer, e]

theorem waitAnswer_listed {s : State} {a : Option Key} (h : s.inputs.waits.head? = some a) : s.waitAnswer = a := by
  obtain ⟨l, e⟩ := List.head?_eq_some_iff.mp h
  simp [State.waitAnswer, e]

theorem drawAnswer_listed {s : State} {a : Bool} (x y : Byte) (rows : List Byte) (hd : s.display = .external)
    (h : s.inputs.hits.head? = some a) : s.drawAnswer x y rows = a := by
  obtain ⟨l, e⟩ := List.head?_eq_some_iff.mp h
  simp [State.drawAnswer, hd, e]

theorem drawAnswer_reference {s : State} {pix : Pixels} (x y : Byte) (rows : List Byte) (h : s.display = .reference pix) :
    s.drawAnswer x y rows = (pix.draw x y rows).2 := by
  simp [State.drawAnswer, h]

end Sys2Proof.Machine
end

