-- ==== Sys2Proof/Laws/Exec.lean ====
section
/-! SUPPORT. What a meaning can do to each part of the state when it answers a next state, over all instructions. -/

namespace Sys2Proof.Machine

/-- The three meanings that check something other than a range, taken apart. -/
theorem execCall_next {addr : Addr} {s t : State} (h : execCall addr s = .next t) :
    s.sp.val < 16 ∧ t = (s.push (s.pc + 2)).finishAt (zextAddr addr) := by
  unfold execCall at h
  split at h
  · cases h
  · rename_i hf
    have := s.sp.isLt
    simp only [State.stackFull, beq_iff_eq] at hf
    exact ⟨by omega, by cases h; rfl⟩

theorem execReturn_next {s t : State} (h : execReturn s = .next t) :
    0 < s.sp.val ∧ t = s.popped.finishAt s.topSlot := by
  unfold execReturn at h
  split at h
  · cases h
  · rename_i hf
    exact ⟨Nat.pos_of_ne_zero fun e => hf (Fin.ext e), by cases h; rfl⟩

theorem execSkipIfKeyPressed_next {x : Reg} {s t : State} (h : execSkipIfKeyPressed x s = .next t) :
    ∃ c, t = s.askPoll.skipIf c := by
  unfold execSkipIfKeyPressed at h
  split at h
  · cases h
  · cases h; exact ⟨_, rfl⟩

theorem execSkipIfKeyNotPressed_next {x : Reg} {s t : State} (h : execSkipIfKeyNotPressed x s = .next t) :
    ∃ c, t = s.askPoll.skipIf c := by
  unfold execSkipIfKeyNotPressed at h
  split at h
  · cases h
  · cases h; exact ⟨_, rfl⟩

/-- WaitForKey completes with a key or holds. -/
theorem execWaitForKey_next {x : Reg} {s t : State} (h : execWaitForKey x s = .next t) :
    (∃ k, s.waitAnswer = some k ∧ t = ((s.tookWait.callOut .waitForKey).writeV x (BitVec.ofNat 8 k.val)).advance) ∨
      (s.waitAnswer = none ∧ t = s.hold) := by
  cases h
  unfold waitOutcome
  cases hk : s.waitAnswer with
  | some k => exact .inl ⟨k, rfl, rfl⟩
  | none => exact .inr ⟨rfl, rfl⟩

@[simp] theorem State.endTransfer_eq (s : State) : s.endTransfer Config.blockXferAdvancesPc = s.advance := rfl

/-- Only the three storing instructions change memory, and only by a transfer of legal addresses from `I` on. -/
theorem exec_next_mem {i : Instr} {s t : State} (h : exec i s = .next t) :
    t.mem = s.mem ∨ ∃ bs, s.transferBase + bs.length ≤ Config.memSize ∧ t.mem = s.mem.writeBytes s.transferBase bs := by
  cases i with
  | call addr => obtain ⟨-, rfl⟩ := execCall_next h; exact .inl (by simp)
  | ret => obtain ⟨-, rfl⟩ := execReturn_next h; exact .inl (by simp)
  | skipIfKeyPressed x => obtain ⟨c, rfl⟩ := execSkipIfKeyPressed_next h; exact .inl (by simp)
  | skipIfKeyNotPressed x => obtain ⟨c, rfl⟩ := execSkipIfKeyNotPressed_next h; exact .inl (by simp)
  | waitForKey x => obtain ⟨k, -, rfl⟩ | ⟨-, rfl⟩ := execWaitForKey_next h <;> exact .inl (by simp)
  | drawSprite x y n => obtain ⟨-, e⟩ := checkRange_next h; cases e; exact .inl (by simp)
  | loadRegistersFromMemory x => obtain ⟨-, e⟩ := checkRange_next h; cases e; exact .inl (by simp)
  | storeRegistersToMemory x =>
    obtain ⟨hr, e⟩ := checkRange_next h; cases e
    exact .inr ⟨(regsUpTo x).map s.readV, by simp only [List.length_map, length_regsUpTo]; omega, by simp⟩
  | convertToDecimalDigits x =>
    obtain ⟨hr, e⟩ := checkRange_next h; cases e
    exact .inr ⟨decimalDigits (digitOperandValue Config.digitOperand x s), by simp only [decimalDigits, List.length_cons, List.length_nil]; omega, by simp⟩
  | _ => cases h; exact .inl (by simp)

/-- Only Call changes a slot of the stack, and it writes the address after itself. -/
theorem exec_next_stack {i : Instr} {s t : State} (h : exec i s = .next t) :
    t.stack = s.stack ∨ ∃ hs : s.sp.val < 16, t.stack = s.stack.set s.sp.val (s.pc + 2) hs := by
  cases i with
  | call addr => obtain ⟨hs, rfl⟩ := execCall_next h; exact .inr ⟨hs, by simp [State.push_stack, hs]⟩
  | ret => obtain ⟨-, rfl⟩ := execReturn_next h; exact .inl (by simp)
  | skipIfKeyPressed x => obtain ⟨c, rfl⟩ := execSkipIfKeyPressed_next h; exact .inl (by simp)
  | skipIfKeyNotPressed x => obtain ⟨c, rfl⟩ := execSkipIfKeyNotPressed_next h; exact .inl (by simp)
  | waitForKey x => obtain ⟨k, -, rfl⟩ | ⟨-, rfl⟩ := execWaitForKey_next h <;> exact .inl (by simp)
  | drawSprite x y n => obtain ⟨-, e⟩ := checkRange_next h; cases e; exact .inl (by simp)
  | loadRegistersFromMemory x => obtain ⟨-, e⟩ := checkRange_next h; cases e; exact .inl (by simp)
  | storeRegistersToMemory x => obtain ⟨-, e⟩ := checkRange_next h; cases e; exact .inl (by simp)
  | convertToDecimalDigits x => obtain ⟨-, e⟩ := checkRange_next h; cases e; exact .inl (by simp)
  | _ => cases h; exact .inl (by simp)

/-- Where `PC` can go (40_cycle.md R104): nowhere (held), past one or two instructions, to an address of a jump or
call, to the sum of an indexed jump, or to a return slot. -/
theorem exec_next_pc {i : Instr} {s t : State} (h : exec i s = .next t) :
    t.pc = s.pc ∨ t.pc = s.pc + 2 ∨ t.pc = s.pc + 4 ∨ (∃ a, t.pc = zextAddr a) ∨
      (∃ b a, t.pc = zextByte b + zextAddr a) ∨ ∃ k : Fin 16, t.pc = s.stack[k.val] := by
  have skip (c : Bool) : (if c then s.pc + 4 else s.pc + 2) = s.pc + 2 ∨ (if c then s.pc + 4 else s.pc + 2) = s.pc + 4 := by
    cases c <;> simp
  cases i with
  | call addr => obtain ⟨-, rfl⟩ := execCall_next h; exact .inr (.inr (.inr (.inl ⟨addr, rfl⟩)))
  | ret =>
    obtain ⟨-, rfl⟩ := execReturn_next h
    exact .inr (.inr (.inr (.inr (.inr ⟨⟨s.sp.val - 1, by have := s.sp.isLt; omega⟩, rfl⟩))))
  | jumpAbsolute addr => cases h; exact .inr (.inr (.inr (.inl ⟨addr, rfl⟩)))
  | jumpIndexed addr => cases h; exact .inr (.inr (.inr (.inr (.inl ⟨_, _, rfl⟩))))
  | skipIfKeyPressed x =>
    obtain ⟨c, rfl⟩ := execSkipIfKeyPressed_next h; exact .inr ((skip c).imp_right .inl)
  | skipIfKeyNotPressed x =>
    obtain ⟨c, rfl⟩ := execSkipIfKeyNotPressed_next h; exact .inr ((skip c).imp_right .inl)
  | skipIfEqualImmediate x kk => cases h; exact .inr ((skip _).imp_right .inl)
  | skipIfNotEqualImmediate x kk => cases h; exact .inr ((skip _).imp_right .inl)
  | skipIfRegistersEqual x y => cases h; exact .inr ((skip _).imp_right .inl)
  | skipIfRegistersNotEqual x y => cases h; exact .inr ((skip _).imp_right .inl)
  | waitForKey x =>
    obtain ⟨k, -, rfl⟩ | ⟨-, rfl⟩ := execWaitForKey_next h
    · exact .inr (.inl (by simp))
    · exact .inl (by simp)
  | drawSprite x y n => obtain ⟨-, e⟩ := checkRange_next h; cases e; exact .inr (.inl (by simp))
  | loadRegistersFromMemory x => obtain ⟨-, e⟩ := checkRange_next h; cases e; exact .inr (.inl (by simp))
  | storeRegistersToMemory x => obtain ⟨-, e⟩ := checkRange_next h; cases e; exact .inr (.inl (by simp))
  | convertToDecimalDigits x => obtain ⟨-, e⟩ := checkRange_next h; cases e; exact .inr (.inl (by simp))
  | _ => cases h; exact .inr (.inl (by simp))

/-- A meaning leaves the cycle held only as WaitForKey without an answer. -/
theorem exec_next_held {i : Instr} {s t : State} (h : exec i s = .next t) (ht : t.held = true) :
    (∃ x, i = .waitForKey x) ∧ s.waitAnswer = none ∧ t = s.hold := by
  cases i with
  | call addr => obtain ⟨-, rfl⟩ := execCall_next h; simp at ht
  | ret => obtain ⟨-, rfl⟩ := execReturn_next h; simp at ht
  | skipIfKeyPressed x => obtain ⟨c, rfl⟩ := execSkipIfKeyPressed_next h; simp at ht
  | skipIfKeyNotPressed x => obtain ⟨c, rfl⟩ := execSkipIfKeyNotPressed_next h; simp at ht
  | waitForKey x =>
    obtain ⟨k, -, rfl⟩ | ⟨hn, rfl⟩ := execWaitForKey_next h
    · simp at ht
    · exact ⟨⟨x, rfl⟩, hn, rfl⟩
  | drawSprite x y n => obtain ⟨-, e⟩ := checkRange_next h; cases e; simp at ht
  | loadRegistersFromMemory x => obtain ⟨-, e⟩ := checkRange_next h; cases e; simp at ht
  | storeRegistersToMemory x => obtain ⟨-, e⟩ := checkRange_next h; cases e; simp at ht
  | convertToDecimalDigits x => obtain ⟨-, e⟩ := checkRange_next h; cases e; simp at ht
  | _ => cases h; simp at ht

/-- No meaning writes the prescaler, and only StoreDelayTimer writes `DT`, only StoreSoundTimer `ST`. -/
theorem exec_next_timers {i : Instr} {s t : State} (h : exec i s = .next t) :
    t.tick = s.tick ∧ (t.dt = s.dt ∨ ∃ x, i = .storeDelayTimer x ∧ t.dt = s.readV x) ∧
      (t.st = s.st ∨ ∃ x, i = .storeSoundTimer x ∧ t.st = s.readV x) := by
  cases i with
  | call addr => obtain ⟨-, rfl⟩ := execCall_next h; simp
  | ret => obtain ⟨-, rfl⟩ := execReturn_next h; simp
  | skipIfKeyPressed x => obtain ⟨c, rfl⟩ := execSkipIfKeyPressed_next h; simp
  | skipIfKeyNotPressed x => obtain ⟨c, rfl⟩ := execSkipIfKeyNotPressed_next h; simp
  | waitForKey x => obtain ⟨k, -, rfl⟩ | ⟨hn, rfl⟩ := execWaitForKey_next h <;> simp
  | drawSprite x y n => obtain ⟨-, e⟩ := checkRange_next h; cases e; simp
  | loadRegistersFromMemory x => obtain ⟨-, e⟩ := checkRange_next h; cases e; simp
  | storeRegistersToMemory x => obtain ⟨-, e⟩ := checkRange_next h; cases e; simp
  | convertToDecimalDigits x => obtain ⟨-, e⟩ := checkRange_next h; cases e; simp
  | storeDelayTimer x => cases h; exact ⟨rfl, .inr ⟨x, rfl, rfl⟩, .inl rfl⟩
  | storeSoundTimer x => cases h; exact ⟨rfl, .inl rfl, .inr ⟨x, rfl, rfl⟩⟩
  | _ => cases h; simp

/-- No meaning refuses (00_scope.md R7). -/
theorem exec_not_refused (i : Instr) (s : State) (r : Refusal) : exec i s ≠ .refused r := by
  have range (a n : Nat) (t : State) : checkRange a n s (.next t) ≠ .refused r := by
    unfold checkRange; split <;> exact nofun
  cases i with
  | call addr => show execCall addr s ≠ _; unfold execCall; split <;> exact nofun
  | ret => show execReturn s ≠ _; unfold execReturn; split <;> exact nofun
  | skipIfKeyPressed x => show execSkipIfKeyPressed x s ≠ _; unfold execSkipIfKeyPressed; split <;> exact nofun
  | skipIfKeyNotPressed x => show execSkipIfKeyNotPressed x s ≠ _; unfold execSkipIfKeyNotPressed; split <;> exact nofun
  | drawSprite x y n => exact range _ _ _
  | loadRegistersFromMemory x => exact range _ _ _
  | storeRegistersToMemory x => exact range _ _ _
  | convertToDecimalDigits x => exact range _ _ _
  | _ => exact nofun

end Sys2Proof.Machine
end

