-- ==== Sys2Proof/Laws/PerInstr.lean ====
section
/-! SUPPORT. Families of statements about every instruction as syntax, one lemma per constructor. -/

namespace Sys2Proof.Laws

open Sys2Proof.Machine

/-! ### EncodesInFamily: the high nibble of the encoded word is the instruction's family (30_encoding.md R75 to R84) -/

/-- The high nibble of the patterns of a tag, by tag number (30_encoding.md R87). -/
def familyOfTag (tag : Nat) : Nat :=
  ([0x0, 0x0, 0x1, 0x2, 0x3, 0x4, 0x5, 0x6, 0x7] ++ [0x8, 0x8, 0x8, 0x8, 0x8, 0x8, 0x8, 0x8, 0x8] ++
    [0x9, 0xA, 0xB, 0xC, 0xD, 0xE, 0xE] ++ [0xF, 0xF, 0xF, 0xF, 0xF, 0xF, 0xF, 0xF, 0xF]).getD tag 0

/-- A named instruction is encoded in its family; `UNKNOWN` carries any family. -/
def EncodesInFamily.Statement (i : Instr) : Prop :=
  tagOf i ≠ 34 → (opField (encode i)).toNat = familyOfTag (tagOf i).toNat

theorem EncodesInFamily.clearScreen : EncodesInFamily.Statement (.clearScreen) :=
  fun _ => rfl

theorem EncodesInFamily.ret : EncodesInFamily.Statement (.ret) :=
  fun _ => rfl

theorem EncodesInFamily.jumpAbsolute (addr : Addr) : EncodesInFamily.Statement (.jumpAbsolute addr) :=
  fun _ => by simp [encode, tagOf, familyOfTag]

theorem EncodesInFamily.call (addr : Addr) : EncodesInFamily.Statement (.call addr) :=
  fun _ => by simp [encode, tagOf, familyOfTag]

theorem EncodesInFamily.skipIfEqualImmediate (x : Reg) (kk : Byte) : EncodesInFamily.Statement (.skipIfEqualImmediate x kk) :=
  fun _ => by simp [encode, tagOf, familyOfTag]

theorem EncodesInFamily.skipIfNotEqualImmediate (x : Reg) (kk : Byte) : EncodesInFamily.Statement (.skipIfNotEqualImmediate x kk) :=
  fun _ => by simp [encode, tagOf, familyOfTag]

theorem EncodesInFamily.skipIfRegistersEqual (x y : Reg) : EncodesInFamily.Statement (.skipIfRegistersEqual x y) :=
  fun _ => by simp [encode, tagOf, familyOfTag]

theorem EncodesInFamily.setImmediate (x : Reg) (kk : Byte) : EncodesInFamily.Statement (.setImmediate x kk) :=
  fun _ => by simp [encode, tagOf, familyOfTag]

theorem EncodesInFamily.addImmediate (x : Reg) (kk : Byte) : EncodesInFamily.Statement (.addImmediate x kk) :=
  fun _ => by simp [encode, tagOf, familyOfTag]

theorem EncodesInFamily.copyRegister (x y : Reg) : EncodesInFamily.Statement (.copyRegister x y) :=
  fun _ => by simp [encode, tagOf, familyOfTag]

theorem EncodesInFamily.bitOr (x y : Reg) : EncodesInFamily.Statement (.bitOr x y) :=
  fun _ => by simp [encode, tagOf, familyOfTag]

theorem EncodesInFamily.bitAnd (x y : Reg) : EncodesInFamily.Statement (.bitAnd x y) :=
  fun _ => by simp [encode, tagOf, familyOfTag]

theorem EncodesInFamily.bitXor (x y : Reg) : EncodesInFamily.Statement (.bitXor x y) :=
  fun _ => by simp [encode, tagOf, familyOfTag]

theorem EncodesInFamily.add (x y : Reg) : EncodesInFamily.Statement (.add x y) :=
  fun _ => by simp [encode, tagOf, familyOfTag]

theorem EncodesInFamily.subtract (x y : Reg) : EncodesInFamily.Statement (.subtract x y) :=
  fun _ => by simp [encode, tagOf, familyOfTag]

theorem EncodesInFamily.shiftRight (x : Reg) : EncodesInFamily.Statement (.shiftRight x) :=
  fun _ => by simp [encode, tagOf, familyOfTag]

theorem EncodesInFamily.subtractReversed (x y : Reg) : EncodesInFamily.Statement (.subtractReversed x y) :=
  fun _ => by simp [encode, tagOf, familyOfTag]

theorem EncodesInFamily.shiftLeft (x : Reg) : EncodesInFamily.Statement (.shiftLeft x) :=
  fun _ => by simp [encode, tagOf, familyOfTag]

theorem EncodesInFamily.skipIfRegistersNotEqual (x y : Reg) : EncodesInFamily.Statement (.skipIfRegistersNotEqual x y) :=
  fun _ => by simp [encode, tagOf, familyOfTag]

theorem EncodesInFamily.setIndex (addr : Addr) : EncodesInFamily.Statement (.setIndex addr) :=
  fun _ => by simp [encode, tagOf, familyOfTag]

theorem EncodesInFamily.jumpIndexed (addr : Addr) : EncodesInFamily.Statement (.jumpIndexed addr) :=
  fun _ => by simp [encode, tagOf, familyOfTag]

theorem EncodesInFamily.generateRandomByte (x : Reg) (mask : Byte) : EncodesInFamily.Statement (.generateRandomByte x mask) :=
  fun _ => by simp [encode, tagOf, familyOfTag]

theorem EncodesInFamily.drawSprite (x y : Reg) (height : Fin 16) : EncodesInFamily.Statement (.drawSprite x y height) :=
  fun _ => by simp [encode, tagOf, familyOfTag]

theorem EncodesInFamily.skipIfKeyPressed (x : Reg) : EncodesInFamily.Statement (.skipIfKeyPressed x) :=
  fun _ => by simp [encode, tagOf, familyOfTag]

theorem EncodesInFamily.skipIfKeyNotPressed (x : Reg) : EncodesInFamily.Statement (.skipIfKeyNotPressed x) :=
  fun _ => by simp [encode, tagOf, familyOfTag]

theorem EncodesInFamily.loadDelayTimer (x : Reg) : EncodesInFamily.Statement (.loadDelayTimer x) :=
  fun _ => by simp [encode, tagOf, familyOfTag]

theorem EncodesInFamily.waitForKey (x : Reg) : EncodesInFamily.Statement (.waitForKey x) :=
  fun _ => by simp [encode, tagOf, familyOfTag]

theorem EncodesInFamily.storeDelayTimer (x : Reg) : EncodesInFamily.Statement (.storeDelayTimer x) :=
  fun _ => by simp [encode, tagOf, familyOfTag]

theorem EncodesInFamily.storeSoundTimer (x : Reg) : EncodesInFamily.Statement (.storeSoundTimer x) :=
  fun _ => by simp [encode, tagOf, familyOfTag]

theorem EncodesInFamily.addToIndex (x : Reg) : EncodesInFamily.Statement (.addToIndex x) :=
  fun _ => by simp [encode, tagOf, familyOfTag]

theorem EncodesInFamily.setIndexToDigitSprite (x : Reg) : EncodesInFamily.Statement (.setIndexToDigitSprite x) :=
  fun _ => by simp [encode, tagOf, familyOfTag]

theorem EncodesInFamily.convertToDecimalDigits (x : Reg) : EncodesInFamily.Statement (.convertToDecimalDigits x) :=
  fun _ => by simp [encode, tagOf, familyOfTag]

theorem EncodesInFamily.storeRegistersToMemory (x : Reg) : EncodesInFamily.Statement (.storeRegistersToMemory x) :=
  fun _ => by simp [encode, tagOf, familyOfTag]

theorem EncodesInFamily.loadRegistersFromMemory (x : Reg) : EncodesInFamily.Statement (.loadRegistersFromMemory x) :=
  fun _ => by simp [encode, tagOf, familyOfTag]

theorem EncodesInFamily.unknown (raw : Word) : EncodesInFamily.Statement (.unknown raw) :=
  fun h => absurd rfl h

end Sys2Proof.Laws
end

