-- ==== Sys2Proof/Laws/Run.lean ====
section
/-! SUPPORT. Runs: one more step, and an induction packaged once. -/

namespace Sys2Proof.Machine

theorem run_zero (s : State) : Host.Core.run Sys2Proof.core 0 s = .next s := rfl

/-- A run of `k + 1` steps whose first step answers `t` is a run of `k` steps from `t`. -/
theorem run_succ_next {k : Nat} {s t : State} (h : step s = .next t) :
    Host.Core.run Sys2Proof.core (k + 1) s = Host.Core.run Sys2Proof.core k t := by
  have h' : Sys2Proof.core.step s = .next t := h
  simp only [Host.Core.run, h']

/-- A run that goes on for `k + 1` steps goes on after its first step. -/
theorem run_succ {k : Nat} {s u : State} (h : Host.Core.run Sys2Proof.core (k + 1) s = .next u) :
    ∃ t, step s = .next t ∧ Host.Core.run Sys2Proof.core k t = .next u := by
  cases e : step s with
  | next t => exact ⟨t, rfl, by rwa [run_succ_next e] at h⟩
  | fault f => have e' : Sys2Proof.core.step s = .fault f := e; simp only [Host.Core.run, e'] at h; cases h
  | refused r => have e' : Sys2Proof.core.step s = .refused r := e; simp only [Host.Core.run, e'] at h; cases h

/-- What holds at the start and is kept by every step holds at the end of every run. -/
theorem run_induction {P : State → Prop} (keep : ∀ s t, P s → step s = .next t → P t) {k : Nat} {s u : State}
    (hs : P s) (h : Host.Core.run Sys2Proof.core k s = .next u) : P u := by
  induction k generalizing s with
  | zero => cases h; exact hs
  | succ k ih => obtain ⟨t, ht, hu⟩ := run_succ h; exact ih (keep s t hs ht) hu

end Sys2Proof.Machine
end

