-- ==== Sys2Proof/Tests/Slice0.lean ====
section
/-! SUPPORT. Tests of the model and witnesses of the statements' hypotheses. Expected values come from
95_test_vectors.md: its vector is named in each docstring (A, B and the number); a name `witness_X` belongs to
`Obligations.X`. -/

namespace Sys2Proof.Tests

open Sys2Proof Sys2Proof.Machine

/-! ### Helpers -/

/-- Reset, with `PC` at the load address. -/
def base : State := { State.reset with pc := 0x0200 }

/-- The state with some registers set. -/
def withRegs (s : State) (rs : List (Reg × Byte)) : State := rs.foldl (fun t r => t.writeV r.1 r.2) s

/-- The state with the word `w` placed where the next step fetches. -/
def placed (w : Nat) (s : State) : State := s.withFetchWord 16 w

/-- The word `w` at 0x0200, some registers set, one step. -/
def one (w : Nat) (rs : List (Reg × Byte)) : Result := step (placed w (withRegs base rs))

/-- What a projection sees of the next state, if there is one. -/
def see {α : Type} (f : State → α) : Result → Option α
  | .next t => some (f t)
  | _ => none

/-- The fault, if the answer is one. -/
def faultOf : Result → Option Fault
  | .fault f => some f
  | _ => none

/-- `V[x]` and `VF`. -/
def xAndFlag (x : Reg) (t : State) : Byte × Byte := (t.readV x, t.readV 15)

/-- The state with answers of the host's display listed. -/
def hostHits (hs : List Bool) : State := { base with inputs := { base.inputs with hits := hs } }

/-- The state with answers of `poll()` listed. -/
def hostPolls (ks : List Keys) : State := { base with inputs := { base.inputs with polls := ks } }

/-- The state with answers of `wait_for_key()` listed. -/
def hostWaits (ws : List (Option Key)) : State := { base with inputs := { base.inputs with waits := ws } }

/-- The state with answers of `next_byte()` listed. -/
def hostRandom (bs : List Byte) : State := { base with inputs := { base.inputs with random := bs } }

/-- Key 10 alone in the other position than all the others: `d` says whether it is down. -/
def keyTen (d : Bool) : Keys := (Vector.replicate 16 (!d)).set 10 d

/-- A state with the reference display of 60_exceptions.md R222, clear. -/
def withDisplay (s : State) : State := { s with display := .reference Pixels.blank }

/-! ### Well-formedness -/

/-- The one ill-formed kind of term: UNKNOWN with a word that a named instruction has (30_encoding.md R76, R85). -/
theorem test_wellFormed_refuses_named_words :
    (Instr.unknown 0x1234).wellFormed = false ∧ (Instr.unknown 0x00E0).wellFormed = false ∧
      (Instr.unknown 0x8F96).wellFormed = false ∧ (Instr.unknown 0xF265).wellFormed = false := by decide

/-- B1: words that are UNKNOWN, and a named instruction with operands at their bounds. -/
theorem test_wellFormed_accepts :
    (Instr.unknown 0x0000).wellFormed = true ∧ (Instr.unknown 0x5121).wellFormed = true ∧
      (Instr.drawSprite 15 15 15).wellFormed = true := by decide

/-! ### Decoding: B1, every tag, the family's words written out bit by bit (op, x, y, n) -/

/-- A1, A2; 30_encoding.md R77. -/
theorem test_decode_fixed : decode 0b0000_0000_1110_0000 = .clearScreen ∧ decode 0b0000_0000_1110_1110 = .ret := by
  decide

/-- A3, B1; 30_encoding.md R78: op, nnn. -/
theorem test_decode_address :
    decode 0b0001_0010_0011_0100 = .jumpAbsolute 0x234 ∧ decode 0b0001_1010_1011_1100 = .jumpAbsolute 0xABC ∧
      decode 0b0010_1111_1111_1111 = .call 0xFFF ∧ decode 0b1010_0001_0010_0011 = .setIndex 0x123 ∧
      decode 0b1011_1111_1111_1111 = .jumpIndexed 0xFFF := by decide

/-- A4, B1; 30_encoding.md R79: op, x, kk. -/
theorem test_decode_immediate :
    decode 0b0011_1100_0111_1111 = .skipIfEqualImmediate 12 0x7F ∧
      decode 0b0100_0000_0000_0000 = .skipIfNotEqualImmediate 0 0 ∧
      decode 0b0110_1010_0000_0111 = .setImmediate 10 7 ∧ decode 0b0111_0001_1111_1111 = .addImmediate 1 0xFF ∧
      decode 0b1100_0011_0000_1111 = .generateRandomByte 3 0x0F := by decide

/-- B1; 30_encoding.md R80: op, x, y, 0. -/
theorem test_decode_register_skips :
    decode 0b0101_1110_1111_0000 = .skipIfRegistersEqual 14 15 ∧
      decode 0b1001_0000_0001_0000 = .skipIfRegistersNotEqual 0 1 := by decide

/-- A5, B1; 30_encoding.md R81: op, x, y, sub-operation. -/
theorem test_decode_family8 :
    decode 0b1000_1010_1011_0000 = .copyRegister 10 11 ∧ decode 0b1000_0001_0010_0001 = .bitOr 1 2 ∧
      decode 0b1000_0001_0010_0010 = .bitAnd 1 2 ∧ decode 0b1000_0001_0010_0011 = .bitXor 1 2 ∧
      decode 0b1000_0000_0001_0100 = .add 0 1 ∧ decode 0b1000_0000_0001_0101 = .subtract 0 1 ∧
      decode 0b1000_0000_0001_0111 = .subtractReversed 0 1 := by decide

/-- B1: the shifts ignore the `y` nibble. -/
theorem test_decode_shifts :
    decode 0x8F06 = .shiftRight 15 ∧ decode 0x8F96 = .shiftRight 15 ∧ decode 0x820E = .shiftLeft 2 ∧
      decode 0x82AE = .shiftLeft 2 := by decide

/-- B1; 30_encoding.md R82: op, x, y, height. -/
theorem test_decode_draw :
    decode 0b1101_0001_0010_0101 = .drawSprite 1 2 5 ∧ decode 0b1101_0001_0010_0000 = .drawSprite 1 2 0 := by decide

/-- B1; 30_encoding.md R83: op, x, sub-operation of 8 bits. -/
theorem test_decode_familyE :
    decode 0b1110_0100_1001_1110 = .skipIfKeyPressed 4 ∧ decode 0b1110_0100_1010_0001 = .skipIfKeyNotPressed 4 := by
  decide

/-- B1; 30_encoding.md R84: op, x, sub-operation of 8 bits. -/
theorem test_decode_familyF :
    decode 0b1111_0100_0000_0111 = .loadDelayTimer 4 ∧ decode 0b1111_0101_0000_1010 = .waitForKey 5 ∧
      decode 0b1111_0011_0001_0101 = .storeDelayTimer 3 ∧ decode 0b1111_0101_0001_1000 = .storeSoundTimer 5 ∧
      decode 0b1111_0011_0001_1110 = .addToIndex 3 ∧ decode 0b1111_0010_0010_1001 = .setIndexToDigitSprite 2 ∧
      decode 0b1111_0000_0011_0011 = .convertToDecimalDigits 0 ∧
      decode 0b1111_0010_0101_0101 = .storeRegistersToMemory 2 ∧
      decode 0b1111_0010_0110_0101 = .loadRegistersFromMemory 2 := by decide

/-- B1, A6: the boundaries of UNKNOWN in families 0, 5 and 9. -/
theorem test_decode_unknown_low_families :
    decode 0x0000 = .unknown 0x0000 ∧ decode 0x00E1 = .unknown 0x00E1 ∧ decode 0x00ED = .unknown 0x00ED ∧
      decode 0x00EF = .unknown 0x00EF ∧ decode 0x01E0 = .unknown 0x01E0 ∧ decode 0x0FEE = .unknown 0x0FEE ∧
      decode 0x0123 = .unknown 0x0123 ∧ decode 0x5121 = .unknown 0x5121 ∧ decode 0x512F = .unknown 0x512F ∧
      decode 0x9AB7 = .unknown 0x9AB7 := by decide

/-- B1: the unassigned low nibbles of family 8. -/
theorem test_decode_unknown_family8 :
    decode 0x8128 = .unknown 0x8128 ∧ decode 0x8129 = .unknown 0x8129 ∧ decode 0x812A = .unknown 0x812A ∧
      decode 0x812B = .unknown 0x812B ∧ decode 0x812C = .unknown 0x812C ∧ decode 0x812D = .unknown 0x812D ∧
      decode 0x812F = .unknown 0x812F := by decide

/-- B1: the unassigned low bytes of families E and F. -/
theorem test_decode_unknown_families_EF :
    decode 0xE49F = .unknown 0xE49F ∧ decode 0xE4A0 = .unknown 0xE4A0 ∧ decode 0xE40E = .unknown 0xE40E ∧
      decode 0xE4FE = .unknown 0xE4FE ∧ decode 0xE411 = .unknown 0xE411 ∧ decode 0xF000 = .unknown 0xF000 ∧
      decode 0xF008 = .unknown 0xF008 ∧ decode 0xF00B = .unknown 0xF00B ∧ decode 0xF025 = .unknown 0xF025 ∧
      decode 0xF035 = .unknown 0xF035 ∧ decode 0xF045 = .unknown 0xF045 ∧ decode 0xF075 = .unknown 0xF075 ∧
      decode 0xF085 = .unknown 0xF085 ∧ decode 0xF0FF = .unknown 0xF0FF ∧ decode 0xF01F = .unknown 0xF01F := by decide

/-- A18; 30_encoding.md R89. -/
theorem test_decode_buffer :
    decodeBuffer [] = .bufferLength 0 ∧ decodeBuffer [0x00] = .bufferLength 1 ∧
      decodeBuffer [0x00, 0xE0, 0x12, 0x34] = .sequence [.clearScreen, .jumpAbsolute 0x234] := by decide

/-- The row number of the host's opcode table is the word: bit 0 is the word's least significant bit. -/
theorem test_decodeTableWord : decodeTableWord 16 0x6A07 = some (.setImmediate 10 7) := by decide

/-- 30_encoding.md R90: the notation of instructions, as the programs of part C write it. -/
theorem test_assembly :
    assembly (.setImmediate 10 7) = "SetImmediate(VA, 0x07)" ∧ assembly (.jumpAbsolute 0x206) = "JumpAbsolute(0x206)" ∧
      assembly (.add 0 1) = "Add(V0, V1)" := by decide

/-- 30_encoding.md R91. -/
theorem test_conventionalName :
    conventionalName (.skipIfRegistersEqual 1 2) = some "SE Vx,Vy" ∧ conventionalName (.unknown 0) = none := by decide

/-- 30_encoding.md R78 to R84 the other way: instructions and their words of B1. -/
theorem test_encode :
    encode (.call 0xFFF) = 0x2FFF ∧ encode (.skipIfEqualImmediate 12 0x7F) = 0x3C7F ∧
      encode (.subtractReversed 0 1) = 0x8017 ∧ encode (.drawSprite 1 2 5) = 0xD125 ∧
      encode (.skipIfKeyNotPressed 4) = 0xE4A1 ∧ encode (.loadRegistersFromMemory 2) = 0xF265 := by decide

/-! ### Control flow: B2 -/

/-- B2.2. -/
theorem test_jumpAbsolute : see (·.pc) (one 0x1FFF []) = some 0x0FFF := by decide

/-- B2.4: the last free slot. -/
theorem test_call :
    see (fun t => (t.stack[15], t.sp, t.pc)) (step (placed 0x2200 { base with pc := 0x0ABC, sp := 15 })) =
      some (0x0ABE, 16, 0x0200) := by decide

/-- B2.5: no free slot. -/
theorem test_call_overflow : faultOf (step (placed 0x2300 { base with sp := 16 })) = some .stackOverflow := by decide

/-- B2.6: the popped slot keeps its value. -/
theorem test_return :
    see (fun t => (t.sp, t.pc, t.stack[0])) (step (placed 0x00EE ((base.push 0x0202).finishAt 0x0300))) =
      some (0, 0x0202, 0x0202) := by decide

/-- B2.7. -/
theorem test_return_underflow : faultOf (one 0x00EE []) = some .stackUnderflow := by decide

/-- B2.8, B2.9. -/
theorem test_skipIfEqualImmediate :
    see (·.pc) (one 0x332A [(3, 0x2A)]) = some 0x0204 ∧ see (·.pc) (one 0x332A [(3, 0x2B)]) = some 0x0202 := by decide

/-- B2.10, B2.11. -/
theorem test_skipIfNotEqualImmediate :
    see (·.pc) (one 0x432A [(3, 0x2A)]) = some 0x0202 ∧ see (·.pc) (one 0x4300 [(3, 0x2A)]) = some 0x0204 := by decide

/-- B2.12, B2.13. -/
theorem test_skipIfRegistersEqual :
    see (·.pc) (one 0x5120 [(1, 7), (2, 7)]) = some 0x0204 ∧ see (·.pc) (one 0x5120 [(1, 7), (2, 8)]) = some 0x0202 := by
  decide

/-- B2.15, B2.16. -/
theorem test_skipIfRegistersNotEqual :
    see (·.pc) (one 0x9120 [(1, 7), (2, 8)]) = some 0x0204 ∧ see (·.pc) (one 0x9330 []) = some 0x0202 := by decide

/-- B2.17, B2.18: the sum is not reduced to 12 bits. -/
theorem test_jumpIndexed :
    see (·.pc) (one 0xB300 [(0, 0x10)]) = some 0x0310 ∧ see (·.pc) (one 0xBFFF [(0, 0xFF)]) = some 0x10FE := by decide

/-- B2.19, B7.8: UNKNOWN advances, also as the first step after reset. -/
theorem test_unknown :
    see (·.pc) (one 0x5121 [(1, 7), (2, 7)]) = some 0x0202 ∧ see (·.pc) (step State.reset) = some 0x0002 := by decide

/-! ### Data movement: B3 -/

/-- B3.1, B3.2. -/
theorem test_setImmediate :
    see (·.readV 10) (one 0x6A07 []) = some 0x07 ∧ see (·.readV 15) (one 0x6FFF []) = some 0xFF := by decide

/-- B3.3. -/
theorem test_copyRegister :
    see (fun t => (t.readV 10, t.readV 11)) (one 0x8AB0 [(10, 0x11), (11, 0x22)]) = some (0x22, 0x22) := by decide

/-- B3.4. -/
theorem test_setIndex : see (·.i) (one 0xA123 []) = some 0x0123 := by decide

/-- B3.6: modulo 2^16, no flag. -/
theorem test_addToIndex :
    see (fun t => (t.i, t.readV 15)) (step (placed 0xF31E (withRegs { base with i := 0xFFFF } [(3, 2), (15, 9)]))) =
      some (0x0001, 9) := by decide

/-- B3.7. -/
theorem test_loadDelayTimer : see (·.readV 4) (step (placed 0xF407 { base with dt := 0x0A })) = some 0x0A := by decide

/-- B3.8, B3.9: with `TICK` at 7 the value is decremented in the same cycle. -/
theorem test_storeDelayTimer :
    see (fun t => (t.dt, t.tick)) (one 0xF315 [(3, 0x0A)]) = some (0x0A, 1) ∧
      see (fun t => (t.dt, t.tick)) (step (placed 0xF315 (withRegs { base with tick := 7 } [(3, 0x0A)]))) =
        some (0x02, 0) := by decide

/-- B3.10, B3.11. -/
theorem test_storeSoundTimer :
    see (fun t => (t.calls, t.st)) (one 0xF518 [(5, 0x1E)]) = some ([.toneStart], 0x1E) ∧
      see (fun t => (t.calls, t.st)) (one 0xF518 []) = some ([.toneStart], 0) := by decide

/-- B3.12: written, then decremented to 0 in the same cycle. -/
theorem test_storeSoundTimer_firing :
    see (fun t => (t.calls, t.st, t.tick)) (step (placed 0xF518 (withRegs { base with tick := 7 } [(5, 8)]))) =
      some ([.toneStart, .toneEnd], 0, 0) := by decide

/-- B3.13, B3.14, B3.15. -/
theorem test_setIndexToDigitSprite :
    see (·.i) (one 0xF229 [(2, 0x0A)]) = some 0x0032 ∧ see (·.i) (one 0xF229 [(2, 0x1A)]) = some 0x0082 ∧
      see (·.i) (one 0xF229 [(2, 0xFF)]) = some 0x04FB := by decide

/-- B3.16. -/
theorem test_storeRegistersToMemory :
    see (fun t => (t.mem.readBytes 0x300 4, t.i, t.pc))
        (step (placed 0xF255 (withRegs { base with i := 0x0300 } [(0, 1), (1, 2), (2, 3), (3, 4)]))) =
      some ([1, 2, 3, 0], 0x0300, 0x0202) := by decide

/-- B3.18, B3.19. -/
theorem test_storeRegistersToMemory_range :
    faultOf (step (placed 0xF155 { base with i := 0x0FFF })) = some (.memoryOutOfRange 0x1000) ∧
      faultOf (step (placed 0xF055 { base with i := 0x2000 })) = some (.memoryOutOfRange 0x2000) := by decide

/-- B3.20. -/
theorem test_loadRegistersFromMemory :
    see (fun t => (t.readV 0, t.readV 1, t.readV 2, t.readV 3, t.i))
        (step (placed 0xF265 (withRegs { base with i := 0x0300, mem := [(0x300, 2), (0x301, 3), (0x302, 4), (0x303, 5)] }
          [(3, 0x99)]))) = some (2, 3, 4, 0x99, 0x0300) := by decide

/-- B3.21. -/
theorem test_loadRegistersFromMemory_range :
    faultOf (step (placed 0xF165 { base with i := 0x0FFF })) = some (.memoryOutOfRange 0x1000) := by decide

/-- B3.23, B3.25. -/
theorem test_convertToDecimalDigits :
    see (·.mem.readBytes 0x300 3) (step (placed 0xF033 (withRegs { base with i := 0x0300 } [(0, 0xEA)]))) =
        some [2, 3, 4] ∧
      see (·.mem.readBytes 0xFFD 3) (step (placed 0xF033 (withRegs { base with i := 0x0FFD } [(0, 0x7B)]))) =
        some [1, 2, 3] := by decide

/-- B3.26. -/
theorem test_convertToDecimalDigits_range :
    faultOf (step (placed 0xF033 { base with i := 0x0FFE })) = some (.memoryOutOfRange 0x1000) := by decide

/-! ### Arithmetic: B4 -/

/-- B4.1: the flag register keeps its value. -/
theorem test_or : see (xAndFlag 0) (one 0x8011 [(0, 0x0F), (1, 0xF0), (15, 7)]) = some (0xFF, 7) := by decide

/-- B4.2. -/
theorem test_and : see (xAndFlag 0) (one 0x8012 [(0, 0x3C), (1, 0x0F), (15, 7)]) = some (0x0C, 7) := by decide

/-- B4.3. -/
theorem test_xor : see (xAndFlag 0) (one 0x8013 [(0, 0xFF), (1, 0x0F), (15, 7)]) = some (0xF0, 7) := by decide

/-- B4.5, B4.6. -/
theorem test_add :
    see (xAndFlag 0) (one 0x8014 [(0, 0xFF), (1, 1)]) = some (0, 1) ∧
      see (xAndFlag 0) (one 0x8014 [(0, 0xFE), (1, 1), (15, 7)]) = some (0xFF, 0) := by decide

/-- B4.26, B4.31: register 15 as a destination and as a source. -/
theorem test_add_flag_register :
    see (·.readV 15) (one 0x8F14 [(15, 0xF0), (1, 0x20)]) = some 1 ∧
      see (xAndFlag 0) (one 0x80F4 [(0, 0xF0), (15, 0x20)]) = some (0x10, 1) := by decide

/-- B4.10, B4.11, B4.12. -/
theorem test_subtract :
    see (xAndFlag 0) (one 0x8015 [(0, 9), (1, 5)]) = some (4, 1) ∧
      see (xAndFlag 0) (one 0x8015 [(0, 5), (1, 5), (15, 7)]) = some (0, 0) ∧
      see (xAndFlag 0) (one 0x8015 [(0, 3), (1, 5), (15, 7)]) = some (0xFE, 0) := by decide

/-- B4.27, B4.32. -/
theorem test_subtract_flag_register :
    see (·.readV 15) (one 0x8F15 [(15, 9), (1, 5)]) = some 4 ∧
      see (xAndFlag 0) (one 0x80F5 [(0, 9), (15, 5)]) = some (4, 1) := by decide

/-- B4.14, B4.15, B4.16. -/
theorem test_subtractReversed :
    see (xAndFlag 0) (one 0x8017 [(0, 5), (1, 9)]) = some (4, 1) ∧
      see (xAndFlag 0) (one 0x8017 [(0, 9), (1, 5), (15, 7)]) = some (0xFC, 0) ∧
      see (xAndFlag 0) (one 0x8017 [(0, 7), (1, 7), (15, 7)]) = some (0, 0) := by decide

/-- B4.28, B4.33. -/
theorem test_subtractReversed_flag_register :
    see (·.readV 15) (one 0x8F17 [(15, 5), (1, 9)]) = some 4 ∧
      see (xAndFlag 0) (one 0x80F7 [(0, 5), (15, 9)]) = some (4, 1) := by decide

/-- B4.18, B4.20: the register that the `y` nibble names is ignored. -/
theorem test_shiftRight :
    see (xAndFlag 0) (one 0x8006 [(0, 0x80), (15, 7)]) = some (0x40, 0) ∧
      see (xAndFlag 0) (one 0x8016 [(0, 3), (1, 0xFF)]) = some (1, 1) := by decide

/-- B4.29. -/
theorem test_shiftRight_flag_register : see (·.readV 15) (one 0x8F06 [(15, 0x81)]) = some 0x40 := by decide

/-- B4.21, B4.23: the flag is 0 or 128. -/
theorem test_shiftLeft :
    see (xAndFlag 0) (one 0x800E [(0, 0xC1)]) = some (0x82, 0x80) ∧
      see (xAndFlag 0) (one 0x800E [(0, 0x7F), (15, 7)]) = some (0xFE, 0) := by decide

/-- B4.30. -/
theorem test_shiftLeft_flag_register : see (·.readV 15) (one 0x8F0E [(15, 0x81)]) = some 2 := by decide

/-- B4.24, B4.25. -/
theorem test_addImmediate :
    see (xAndFlag 0) (one 0x7005 [(0, 0xFE), (15, 7)]) = some (3, 7) ∧
      see (xAndFlag 0) (one 0x70FF [(0, 1), (15, 7)]) = some (0, 7) := by decide

/-! ### Timers: B5 -/

/-- B5.2. -/
theorem test_satSub8 :
    satSub8 0 8 = 0 ∧ satSub8 1 8 = 0 ∧ satSub8 7 8 = 0 ∧ satSub8 8 8 = 0 ∧ satSub8 9 8 = 1 ∧ satSub8 16 8 = 8 ∧
      satSub8 255 8 = 247 := by decide

/-! ### Input and output: B6 -/

/-- B6.1. -/
theorem test_clearScreen :
    see (fun t => (t.calls, t.pc, t.readV 15)) (one 0x00E0 [(15, 1)]) = some ([.clear], 0x0202, 1) := by decide

/-- B6.2. -/
theorem test_generateRandomByte :
    see (fun t => (t.readV 3, t.calls)) (step (placed 0xC30F (hostRandom [0xA7]))) =
      some (0x07, [.nextByte]) := by decide

/-- B6.5 on a host's display: the call's arguments and the flag. -/
theorem test_drawSprite :
    see (fun t => (t.calls, t.readV 15, t.i))
        (step (placed 0xD125 (withRegs { hostHits [true] with i := 0x300, mem := [(0x300, 0xF0), (0x301, 0x90), (0x304, 0xF0)] }
          [(1, 2), (2, 3)]))) =
      some ([.draw 2 3 [0xF0, 0x90, 0, 0, 0xF0]], 1, 0x0300) := by decide

/-- B6.7, B6.9: height 0 reads nothing; a range fault. -/
theorem test_drawSprite_height :
    see (fun t => (t.calls, t.readV 15))
        (step (placed 0xD120 (withRegs { hostHits [false] with i := 0xFFFF } [(15, 1)]))) = some ([.draw 0 0 []], 0) ∧
      faultOf (step (placed 0xD125 { base with i := 0x0FFC })) = some (.memoryOutOfRange 0x1000) := by decide

/-- B6.10, and the reference display's lines after B6: each pixel wraps on its own. -/
theorem test_reference_draw :
    let first := Pixels.blank.draw 60 31 [0xFF, 0x81]
    first.2 = false ∧ first.1.lit 63 31 = true ∧ first.1.lit 3 31 = true ∧ first.1.lit 60 0 = true ∧
      first.1.lit 3 0 = true ∧ first.1.lit 4 31 = false ∧ first.1.lit 61 0 = false ∧
      (first.1.draw 252 63 [0x80]).2 = true ∧ (first.1.draw 252 63 [0x80]).1.lit 60 31 = false := by decide

/-- B6.11, B6.12. -/
theorem test_skipIfKeyPressed :
    see (fun t => (t.pc, t.calls)) (step (placed 0xE49E (withRegs (hostPolls [keyTen true]) [(4, 0x0A)]))) =
        some (0x0204, [.poll]) ∧
      see (·.pc) (step (placed 0xE49E (withRegs (hostPolls [keyTen false]) [(4, 0x0A)]))) =
        some 0x0202 := by decide

/-- B6.13, B6.14. -/
theorem test_skipIfKeyNotPressed :
    see (fun t => (t.pc, t.calls)) (step (placed 0xE4A1 (withRegs (hostPolls [keyTen false]) [(4, 0x0A)]))) =
        some (0x0204, [.poll]) ∧
      see (·.pc) (step (placed 0xE4A1 (withRegs (hostPolls [keyTen true]) [(4, 0x0A)]))) =
        some 0x0202 := by decide

/-- B6.15, B6.16: the value is not masked to a nibble. -/
theorem test_key_skips_fault :
    faultOf (one 0xE49E [(4, 0xFF)]) = some (.invalidKeyIndex 0xFF) ∧
      faultOf (one 0xE4A1 [(4, 0x10)]) = some (.invalidKeyIndex 0x10) := by decide

/-- B5.5, B6.17: the answer completes the cycle, with the timer step of a firing cycle. -/
theorem test_waitForKey :
    see (fun t => (t.readV 5, t.pc, t.tick, t.dt, t.held))
        (step (placed 0xF50A { hostWaits [some 3] with tick := 7, dt := 10 })) =
      some (3, 0x0202, 0, 2, false) := by decide

/-- B5.5, B6.18: no answer, held. -/
theorem test_waitForKey_held :
    see (fun t => (t.pc, t.tick, t.dt, t.held, t.calls))
        (step (placed 0xF50A { hostWaits [none] with tick := 7, dt := 10 })) =
      some (0x0200, 7, 10, true, []) := by decide

/-! ### Fetch and load: B7 -/

/-- B7.1, B2.21: the last legal fetch address, and an odd one. -/
theorem test_fetch :
    see (·.pc) (step { base with pc := 0x0FFE, mem := [(0xFFE, 0x12)] }) = some 0x0200 ∧
      see (·.pc) (step { base with pc := 0x0201, mem := [(0x201, 0x12), (0x202, 0x34)] }) = some 0x0234 := by decide

/-- B7.2, B7.3. -/
theorem test_fetch_out_of_range :
    faultOf (step { base with pc := 0x0FFF }) = some (.memoryOutOfRange 0x1000) ∧
      faultOf (step { base with pc := 0x1000 }) = some (.memoryOutOfRange 0x1000) ∧
      faultOf (step { base with pc := 0xFFFE }) = some (.memoryOutOfRange 0xFFFE) := by decide

/-- The numbers of the table of 60_exceptions.md R200. -/
theorem test_error_codes :
    faultCode (.invalidKeyIndex 16) = 1 ∧ faultCode .stackOverflow = 2 ∧ faultCode .stackUnderflow = 3 ∧
      faultCode (.memoryOutOfRange 4096) = 4 ∧ faultCode .unimplementedOpcode = 5 ∧
      loadErrorCode (.tooLarge 3585) = some 6 ∧ batchErrorCode (decodeBuffer [0x00]) = some 7 := by decide

/-- What a projection sees of a loaded state. -/
def seeLoaded {α : Type} (f : State → α) : LoadResult → Option α
  | .loaded t => some (f t)
  | .tooLarge _ => none

/-- B7.7: an odd length, the font's ends and the start address. -/
theorem test_load :
    seeLoaded (fun t => (t.fetchWord, t.pc, t.mem.readBytes 0 5, t.mem.readBytes 78 3)) (State.reset.load [0x6A]) =
      some (0x6A00, 0x0200, [0xF0, 0x90, 0x90, 0x90, 0xF0], [0x80, 0x80, 0]) := by decide

/-! ### Witnesses of the statements' hypotheses, each clause at a bound of its range -/

theorem next_such {p : State → Prop} [DecidablePred p] {r : Result} (h : see (fun t => decide (p t)) r = some true) :
    ∃ t, r = .next t ∧ p t := by
  match r, h with
  | .next t, h => exact ⟨t, rfl, by simpa [see] using h⟩

theorem fault_of {r : Result} {f : Fault} (h : faultOf r = some f) : r = .fault f := by
  match r, h with
  | .fault g, h => exact congrArg _ (Option.some.inj h)

/-- A state that waits at 0x0FFE, the last place an instruction can be fetched from. -/
def lastPlace (hi lo : Byte) (s : State) : State :=
  { s with pc := 0x0FFE, mem := Memory.writeBytes [] 0xFFE [hi, lo] }

theorem witness_DecodeOfEncode :
    (Instr.unknown 0xF0FF).wellFormed = true ∧ (Instr.drawSprite 15 15 15).wellFormed = true ∧
      (Instr.setIndex 0xFFF).wellFormed = true ∧ (Instr.addImmediate 15 0xFF).wellFormed = true := by decide

theorem witness_EncodeOfDecode :
    tagOf (decode 0x8F96) = 15 ∧ tagOf (decode 0x82FE) = 17 ∧ tagOf (decode 0xFFFF) ≠ 15 ∧ tagOf (decode 0xFFFF) ≠ 17 := by
  decide

theorem witness_DispatchAgreesWithOpcodeTable :
    (⟨22, 0xD000, 0xF000⟩ : Row) ∈ opcodeRows ∧ (⟨22, 0xD000, 0xF000⟩ : Row).fits 0xDFFF = true ∧
      ∀ r ∈ opcodeRows, r.fits 0x0000 = false := by decide

theorem witness_UnknownExactly : decode 0xF0FF = .unknown 0xF0FF ∧ unknownWord 0xF0FF = true := by decide

theorem witness_OpcodeRowsDisjoint :
    (⟨15, 0x8006, 0xF00F⟩ : Row) ∈ opcodeRows ∧ (⟨15, 0x8006, 0xF00F⟩ : Row).fits 0x8FF6 = true := by decide

theorem witness_BatchDecoderPairs :
    ([] : List Byte).length = 0 ∧ ([1, 2, 3] : List Byte).length % 2 = 1 ∧ ([0x00, 0xE0] : List Byte).length ≠ 0 ∧
      ([0x00, 0xE0] : List Byte).length % 2 = 0 ∧ 0 < ([0x00, 0xE0] : List Byte).length / 2 := by decide

/-- The bounds of the tag numbers: the tags 0 and 34 are reached. -/
theorem witness_DecoderBlockOutputs : (decoderOutputs 0x00E0).tag.toNat = 0 ∧ (decoderOutputs 0x0000).tag.toNat = 34 := by
  decide

theorem witness_StepRunsDecodedInstruction_completes :
    (lastPlace 0x12 0x00 base).pc.toNat + 1 ≤ 0x0FFF ∧ (lastPlace 0x12 0x00 base).fetched = .jumpAbsolute 0x200 ∧
      ∃ t, exec (.jumpAbsolute 0x200) (lastPlace 0x12 0x00 base) = .next t ∧ t.held = false :=
  ⟨by decide, by decide, next_such (by decide)⟩

theorem witness_StepRunsDecodedInstruction_held :
    (lastPlace 0xF5 0x0A (hostWaits [none])).fetched = .waitForKey 5 ∧
      ∃ t, exec (.waitForKey 5) (lastPlace 0xF5 0x0A (hostWaits [none])) = .next t ∧ t.held = true :=
  ⟨by decide, next_such (by decide)⟩

theorem witness_StepRunsDecodedInstruction_fault :
    (lastPlace 0x00 0xEE base).fetched = .ret ∧ exec .ret (lastPlace 0x00 0xEE base) = .fault .stackUnderflow :=
  ⟨by decide, fault_of (by decide)⟩

theorem witness_FetchOutOfRangeFaults :
    0x0FFF < ({ base with pc := 0x1000 } : State).pc.toNat ∧ ({ base with pc := 0x0FFF } : State).pc.toNat = 0x0FFF := by
  decide

theorem witness_FaultOrigins_stack :
    exec (.call 0x300) { base with sp := 16 } = .fault .stackOverflow ∧ exec .ret base = .fault .stackUnderflow :=
  ⟨fault_of (by decide), fault_of (by decide)⟩

theorem witness_FaultOrigins_keys :
    exec (.skipIfKeyPressed 4) (withRegs base [(4, 16)]) = .fault (.invalidKeyIndex 16) ∧
      exec (.skipIfKeyNotPressed 4) (withRegs base [(4, 16)]) = .fault (.invalidKeyIndex 16) :=
  ⟨fault_of (by decide), fault_of (by decide)⟩

theorem witness_FaultOrigins_memory :
    exec (.storeRegistersToMemory 15) { base with i := 0x0FF1 } = .fault (.memoryOutOfRange 4096) ∧
      exec (.loadRegistersFromMemory 0) { base with i := 0x1000 } = .fault (.memoryOutOfRange 4096) ∧
      exec (.convertToDecimalDigits 0) { base with i := 0x0FFE } = .fault (.memoryOutOfRange 4096) ∧
      exec (.drawSprite 0 0 1) { base with i := 0xFFFF } = .fault (.memoryOutOfRange 0xFFFF) :=
  ⟨fault_of (by decide), fault_of (by decide), fault_of (by decide), fault_of (by decide)⟩

theorem witness_AccessMatrixRespected :
    (∃ t, exec (.setIndex 0x123) base = .next t ∧ t.i ≠ base.i) ∧
      (∃ t, exec (.setImmediate 15 1) base = .next t ∧ t.readV 15 ≠ base.readV 15) ∧
      (∃ t, exec (.call 0x300) base = .next t ∧ t.sp ≠ base.sp ∧ t.stack ≠ base.stack) ∧
      (∃ t, exec (.storeDelayTimer 0) (withRegs base [(0, 1)]) = .next t ∧ t.dt ≠ (withRegs base [(0, 1)]).dt) ∧
      (∃ t, exec (.storeSoundTimer 0) (withRegs base [(0, 1)]) = .next t ∧ t.st ≠ (withRegs base [(0, 1)]).st) ∧
      (∃ t, exec (.storeRegistersToMemory 0) (withRegs base [(0, 1)]) = .next t ∧ t.mem ≠ (withRegs base [(0, 1)]).mem) :=
  ⟨next_such (by decide), next_such (by decide), next_such (by decide), next_such (by decide), next_such (by decide),
    next_such (by decide)⟩

theorem witness_FlagRegisterWriters :
    (∃ t, exec (.shiftLeft 0) (withRegs base [(0, 0x80)]) = .next t ∧
      t.readV 15 ≠ (withRegs base [(0, 0x80)]).readV 15) ∧
    ∃ t, exec (.setImmediate 15 1) base = .next t ∧ t.readV 15 ≠ base.readV 15 :=
  ⟨next_such (by decide), next_such (by decide)⟩

theorem witness_TimersReadOnlyByLoadDelayTimer :
    (∀ x, Instr.storeDelayTimer 0 ≠ .loadDelayTimer x) ∧
      (9 = ({ base with dt := 9 } : State).dt ∧ ∃ t, exec (.loadDelayTimer 0) { base with dt := 9 } = .next t ∧
        t.readV 0 = 9) ∧ (∃ t, exec (.storeDelayTimer 0) base = .next t ∧ t.dt = 0) ∧
      exec .ret base = .fault .stackUnderflow :=
  ⟨by decide, ⟨rfl, next_such (by decide)⟩, next_such (by decide), fault_of (by decide)⟩

/-- A Call fetched at the last place pushes 0x1000, the largest return slot the invariant allows. -/
theorem witness_StepKeepsInvariant :
    (lastPlace 0x22 0x00 base).Inv ∧ ∃ t, step (lastPlace 0x22 0x00 base) = .next t ∧ t.stack[0] = 0x1000 :=
  ⟨⟨by decide, by decide, by decide, by decide⟩, next_such (by decide)⟩

theorem witness_StepKeepsInvariant_held :
    ({ lastPlace 0xF5 0x0A (hostWaits [none]) with held := true } : State).Inv ∧
      ∃ t, step { lastPlace 0xF5 0x0A (hostWaits [none]) with held := true } = .next t ∧ t.held = true :=
  ⟨⟨by decide, by decide, by decide, fun _ => ⟨5, by decide⟩⟩, next_such (by decide)⟩

theorem witness_LoadPlacesFontAndProgram :
    State.reset.mem.wf ∧ (List.replicate 3584 (0x12 : Byte)).length ≤ 3584 ∧ 79 < 80 ∧
      3583 < (List.replicate 3584 (0x12 : Byte)).length :=
  ⟨by decide, by rw [List.length_replicate], by decide, by rw [List.length_replicate]; decide⟩

theorem witness_LoadTouchesNothingElse :
    3584 < (List.replicate 3585 (0x12 : Byte)).length ∧ (∃ t, State.reset.load [0x6A] = .loaded t) ∧
      ((80 ≤ 80 ∧ 80 < 0x200) ∧ (80 ≤ 0x1FF ∧ 0x1FF < 0x200) ∧ 0x200 + ([0x6A] : List Byte).length ≤ 0x201) :=
  ⟨by rw [List.length_replicate]; decide, ⟨_, rfl⟩, by decide⟩

theorem witness_LoadKeepsInvariant :
    State.reset.Inv ∧ State.reset.held = false ∧ ∃ t, State.reset.load [0x12, 0x00] = .loaded t :=
  ⟨⟨by decide, by decide, by decide, by decide⟩, rfl, _, rfl⟩

theorem witness_CanonicalMemoryIsExtensional :
    Memory.wf [(0, 1), (4095, 255)] ∧ Memory.wf (Memory.write (Memory.write [] 4095 255) 0 1) ∧
      ∀ a, Memory.read [(0, 1), (4095, 255)] a = Memory.read (Memory.write (Memory.write [] 4095 255) 0 1) a :=
  ⟨by decide, by decide, fun _ => rfl⟩

theorem witness_TimerStepEffect :
    ({ base with tick := 7, dt := 7, st := 8 } : State).tick.toNat = 7 ∧ base.tick.toNat ≠ 7 ∧
      ({ base with tick := 6 } : State).tick.toNat ≠ 7 := by decide

theorem witness_ToneEndOncePerCrossing :
    (∃ t, step { base with tick := 7, st := 8 } = .next t ∧ t.calls = [.toneEnd]) ∧
      (∃ t, step { base with tick := 7, st := 9 } = .next t ∧ t.calls = []) ∧
      (∃ t, step { base with tick := 7 } = .next t ∧ t.calls = []) ∧
      ∃ t, step { base with tick := 6, st := 1 } = .next t ∧ t.calls = [] :=
  ⟨next_such (by decide), next_such (by decide), next_such (by decide), next_such (by decide)⟩

theorem witness_DelayTimerNonIncreasing :
    (∃ t, step { base with tick := 7, dt := 1 } = .next t ∧ t.dt ≠ 1) ∧
      ∀ x, ({ base with tick := 7, dt := 1 } : State).fetched ≠ .storeDelayTimer x :=
  ⟨next_such (by decide), by decide⟩

theorem witness_TimerAccessInFiringCycle :
    ({ lastPlace 0xF3 0x15 base with tick := 7 } : State).pc.toNat + 1 ≤ 0x0FFF ∧
      ({ lastPlace 0xF3 0x15 base with tick := 7 } : State).tick.toNat = 7 ∧
      ({ lastPlace 0xF3 0x15 base with tick := 7 } : State).fetched = .storeDelayTimer 3 ∧
      ({ lastPlace 0xF4 0x07 base with tick := 7 } : State).fetched = .loadDelayTimer 4 := by decide

theorem witness_HeldRunChangesNothing :
    (lastPlace 0xF5 0x0A (hostWaits [none, none, some 7])).pc.toNat + 1 ≤ 0x0FFF ∧
      (lastPlace 0xF5 0x0A (hostWaits [none, none, some 7])).fetched = .waitForKey 5 ∧
      (lastPlace 0xF5 0x0A (hostWaits [none, none, some 7])).inputs.waits = List.replicate (1 + 1) none ++ [some 7] := by
  decide

theorem witness_SettledStaysSettled : (placed 0x1200 base).settled := ⟨by decide, 0x200, by decide, by decide⟩

theorem witness_CallResult :
    ({ base with sp := 15 } : State).sp.val < 16 ∧ base.sp.val < 16 ∧ ({ base with sp := 16 } : State).sp.val = 16 := by
  decide

theorem witness_ReturnResult :
    ({ base with sp := 16 } : State).sp.val = (15 : Fin 16).val + 1 ∧
      ({ base with sp := 1 } : State).sp.val = (0 : Fin 16).val + 1 ∧ base.sp.val = 0 := by decide

theorem witness_CallThenReturn :
    ∃ t, exec (.call 0xFFF) { base with sp := 15 } = .next t ∧ t.sp = 16 := next_such (by decide)

theorem witness_StoreRegistersResult :
    ({ base with i := 0x0FF0 } : State).mem.wf ∧ ({ base with i := 0x0FF0 } : State).transferBase + (15 : Reg).val ≤ 4095 ∧
      (15 : Reg) ≤ 15 := by decide

theorem witness_LoadRegistersResult :
    ({ base with i := 0x0FF1 } : State).i.toNat + (14 : Reg).val ≤ 4095 ∧ (14 : Reg) ≤ 14 ∧ (14 : Reg) < 15 := by decide

theorem witness_DecimalDigitsResult :
    ({ base with i := 0x0FFD } : State).mem.wf ∧ ({ base with i := 0x0FFD } : State).transferBase + 2 ≤ 4095 := by decide

theorem witness_TransferRangeFaults :
    4095 < ({ base with i := 0x0FFF } : State).i.toNat + (1 : Reg).val ∧
      4095 < ({ base with i := 0x0FFE } : State).i.toNat + 2 ∧
      0 < (1 : Fin 16).val ∧ 4096 < ({ base with i := 0x1000 } : State).i.toNat + (1 : Fin 16).val := by decide

/-- The clauses of AddResult, SubtractResults and ShiftResults about a destination other than register 15, and of
BitwiseResults about a bit. -/
theorem witness_destination : (14 : Reg) ≠ 15 ∧ (0 : Reg) ≠ 15 ∧ 7 < 8 := by decide

theorem witness_ClearScreenResult :
    base.display = .external ∧ (withDisplay base).display = .reference Pixels.blank := by decide

theorem witness_RandomByteResult : (hostRandom [0xA7]).inputs.random.head? = some 0xA7 ∧ 7 < 8 := by decide

theorem witness_DrawSpriteResult :
    ((0 : Fin 16).val = 0 ∨ ({ base with i := 0xFFFF } : State).i.toNat + (0 : Fin 16).val ≤ 4096) ∧
      ({ base with i := 0x0FF1 } : State).i.toNat + (15 : Fin 16).val ≤ 4096 ∧ 14 < (15 : Fin 16).val ∧
      (withDisplay base).display = .reference Pixels.blank ∧ (hostHits [true]).display = .external ∧
      (hostHits [true]).inputs.hits.head? = some true := by decide

theorem witness_KeySkips :
    ((withRegs base [(4, 15)]).readV 4).toNat = (15 : Key).val ∧ (base.readV 4).toNat = (0 : Key).val ∧
      16 ≤ ((withRegs base [(4, 16)]).readV 4).toNat ∧
      (hostPolls [keyTen true]).inputs.polls.head? = some (keyTen true) := by decide

theorem witness_WaitForKeyResult :
    (hostWaits [some 15]).inputs.waits.head? = some (some 15) ∧ (hostWaits [some 15]).waitAnswer = some 15 ∧
      (hostWaits [some 0]).waitAnswer = some 0 := by decide

theorem witness_WaitForKeyHolds :
    (hostWaits [none, some 3]).inputs.waits.head? = some none ∧ (hostWaits [none, some 3]).waitAnswer = none := by decide

/-- B6: a pixel at the grid's last place, and one on which a bit of the sprite falls. -/
theorem witness_ReferenceDrawPixels :
    (List.replicate 15 (0xFF : Byte)).length ≤ 15 ∧ 63 < 64 ∧ 31 < 32 ∧
      ([0xFF, 0x81] : List Byte)[0]? = some 0xFF ∧ 3 < 8 ∧ (0xFF : Byte).getLsbD (7 - 3) = true ∧ (60 + 3) % 64 = 63 ∧
      (31 + 0) % 32 = 31 := by decide

theorem witness_DrawTwiceRestores : (List.replicate 15 (0xFF : Byte)).length ≤ 15 := by decide

end Sys2Proof.Tests
end

section
/-! Which faults a meaning and a step can answer (60_exceptions.md R200 to R205), and that no step refuses
(00_scope.md R7). -/

namespace Sys2Proof.Machine

/-! ### The faults of the meanings that can fault -/

theorem execCall_fault {addr : Addr} {s : State} {f : Fault} (h : execCall addr s = .fault f) :
    f = .stackOverflow ∧ s.sp.val = 16 := by
  unfold execCall at h
  split at h
  · rename_i hfull
    exact ⟨by cases h; rfl, by simpa [State.stackFull] using hfull⟩
  · cases h

theorem execReturn_fault {s : State} {f : Fault} (h : execReturn s = .fault f) :
    f = .stackUnderflow ∧ s.sp.val = 0 := by
  unfold execReturn at h
  split at h
  · rename_i hempty
    exact ⟨by cases h; rfl, congrArg Fin.val hempty⟩
  · cases h

theorem keyNamed_eq_none {k : Byte} : keyNamed k = none ↔ 16 ≤ k.toNat := by
  simp [keyNamed]

theorem execSkipIfKeyPressed_fault {x : Reg} {s : State} {f : Fault} (h : execSkipIfKeyPressed x s = .fault f) :
    f = .invalidKeyIndex (s.readV x) ∧ 16 ≤ (s.readV x).toNat := by
  unfold execSkipIfKeyPressed at h
  split at h
  · rename_i hkey
    exact ⟨by cases h; rfl, keyNamed_eq_none.mp hkey⟩
  · cases h

theorem execSkipIfKeyNotPressed_fault {x : Reg} {s : State} {f : Fault}
    (h : execSkipIfKeyNotPressed x s = .fault f) :
    f = .invalidKeyIndex (s.readV x) ∧ 16 ≤ (s.readV x).toNat := by
  unfold execSkipIfKeyNotPressed at h
  split at h
  · rename_i hkey
    exact ⟨by cases h; rfl, keyNamed_eq_none.mp hkey⟩
  · cases h

/-- A transfer that completes once its range is legal faults only on the range. -/
theorem checkRange_next_fault {a n : Nat} {s t : State} {f : Fault} (h : checkRange a n s (.next t) = .fault f) :
    ¬(n = 0 ∨ a + n ≤ Config.memSize) ∧ f = .memoryOutOfRange (max a Config.memSize) :=
  (checkRange_fault h).resolve_right nofun

/-! ### `UnimplementedOpcode` is never raised (60_exceptions.md R205) -/

theorem exec_fault_ne_unimplementedOpcode {i : Instr} {s : State} {f : Fault} (h : exec i s = .fault f) :
    f ≠ .unimplementedOpcode := by
  cases i with
  | call addr => obtain ⟨rfl, -⟩ := execCall_fault h; exact nofun
  | ret => obtain ⟨rfl, -⟩ := execReturn_fault h; exact nofun
  | skipIfKeyPressed x => obtain ⟨rfl, -⟩ := execSkipIfKeyPressed_fault h; exact nofun
  | skipIfKeyNotPressed x => obtain ⟨rfl, -⟩ := execSkipIfKeyNotPressed_fault h; exact nofun
  | drawSprite x y n => obtain ⟨-, rfl⟩ := checkRange_next_fault h; exact nofun
  | loadRegistersFromMemory x => obtain ⟨-, rfl⟩ := checkRange_next_fault h; exact nofun
  | storeRegistersToMemory x => obtain ⟨-, rfl⟩ := checkRange_next_fault h; exact nofun
  | convertToDecimalDigits x => obtain ⟨-, rfl⟩ := checkRange_next_fault h; exact nofun
  | _ => cases h

theorem step_fault_ne_unimplementedOpcode {s : State} {f : Fault} (h : step s = .fault f) :
    f ≠ .unimplementedOpcode := by
  obtain ⟨-, rfl⟩ | ⟨-, hexec⟩ := step_fault h
  · exact nofun
  · exact exec_fault_ne_unimplementedOpcode hexec

/-- The faults a cycle can raise carry the numbers 1 to 4 (spec decision D13). -/
theorem faultCode_mem_one_four {f : Fault} (h : f ≠ .unimplementedOpcode) : 1 ≤ faultCode f ∧ faultCode f ≤ 4 := by
  cases f with
  | unimplementedOpcode => exact absurd rfl h
  | _ => simp [faultCode]

/-! ### No word is refused (00_scope.md R7) -/

theorem endCycle_refused {r : Result} {e : Refusal} (h : endCycle r = .refused e) : r = .refused e := by
  cases r with
  | next t => cases h
  | fault f => cases h
  | refused e' => cases h; rfl

theorem step_not_refused (s : State) (e : Refusal) : step s ≠ .refused e := by
  intro h
  by_cases hfetch : s.pc.toNat + 2 ≤ Config.memSize
  · rw [step_legal hfetch] at h
    exact exec_not_refused _ _ e (endCycle_refused h)
  · rw [step, checkRange_illegal s _ (by omega)] at h
    cases h

/-- Settles O11: a step is not refused, and a fault it answers is not `UnimplementedOpcode`, the only one numbered
above 4. -/
theorem stepCompletesHoldsOrFaults : Obligations.StepCompletesHoldsOrFaults := by
  intro s
  cases h : step s with
  | next t => exact .inl ⟨t, rfl⟩
  | fault f => exact .inr ⟨f, rfl, faultCode_mem_one_four (step_fault_ne_unimplementedOpcode h)⟩
  | refused e => exact absurd h (step_not_refused s e)

end Sys2Proof.Machine
end

section
/-! The access matrix of 10_state.md R33: what each meaning can write (R20 to R28; 20_memory.md R50), that `DT`, `ST`
and `TICK` are read by nobody but LoadDelayTimer, and the state after reset (R32). -/

namespace Sys2Proof.Machine

/-! ### Written columns: what a meaning leaves unchanged -/

theorem State.readV_writeResultThenFlag_ne {s : State} {x r : Reg} (a b : Byte) (hx : r ≠ x) (hf : r ≠ flagReg) :
    (s.writeResultThenFlag x a b).readV r = s.readV r := by
  rw [State.writeResultThenFlag, State.readV_writeV_ne _ _ hf, State.readV_writeV_ne _ _ hx]

theorem State.readV_writeFlagThenResult_ne {s : State} {x r : Reg} (a b : Byte) (hx : r ≠ x) (hf : r ≠ flagReg) :
    (s.writeFlagThenResult x a b).readV r = s.readV r := by
  rw [State.writeFlagThenResult, State.readV_writeV_ne _ _ hx, State.readV_writeV_ne _ _ hf]

/-- A general register outside an instruction's destinations keeps its value (R20, R33). -/
theorem exec_next_readV {i : Instr} {s t : State} {r : Reg} (h : exec i s = .next t) (hr : r ∉ destinationRegs i) :
    t.readV r = s.readV r := by
  cases i with
  | call addr => obtain ⟨-, rfl⟩ := execCall_next h; simp
  | ret => obtain ⟨-, rfl⟩ := execReturn_next h; simp
  | skipIfKeyPressed x => obtain ⟨c, rfl⟩ := execSkipIfKeyPressed_next h; simp
  | skipIfKeyNotPressed x => obtain ⟨c, rfl⟩ := execSkipIfKeyNotPressed_next h; simp
  | storeRegistersToMemory x => obtain ⟨-, e⟩ := checkRange_next h; cases e; simp
  | convertToDecimalDigits x => obtain ⟨-, e⟩ := checkRange_next h; cases e; simp
  | loadRegistersFromMemory x =>
    obtain ⟨-, e⟩ := checkRange_next h; cases e
    have hx : r ∉ regsUpTo x := hr
    simp [loadRegs_readV, hx]
  | waitForKey x =>
    have hx : r ≠ x := List.mem_singleton.not.mp hr
    obtain ⟨k, -, rfl⟩ | ⟨-, rfl⟩ := execWaitForKey_next h
    · simp [State.readV_writeV_ne _ _ hx]
    · simp
  | drawSprite x y n =>
    have hf : r ≠ flagReg := List.mem_singleton.not.mp hr
    obtain ⟨-, e⟩ := checkRange_next h; cases e; simp [State.readV_writeV_ne _ _ hf]
  | setImmediate x _ | addImmediate x _ | copyRegister x _ | bitOr x _ | bitAnd x _ | bitXor x _
  | generateRandomByte x _ | loadDelayTimer x =>
    have hx : r ≠ x := List.mem_singleton.not.mp hr
    cases h; simp [State.readV_writeV_ne _ _ hx]
  | add x y | subtract x y | subtractReversed x y | shiftRight x | shiftLeft x =>
    simp only [destinationRegs, List.mem_cons, List.not_mem_nil, or_false, not_or] at hr
    obtain ⟨hx, hf⟩ := hr
    cases h; simp [State.readV_writeResultThenFlag_ne, State.readV_writeFlagThenResult_ne, hx, hf]
  | _ => cases h; simp

/-- Who can write `I` (R22), `SP` (R25), `STACK` (R24) and `MEM` (20_memory.md R50). -/
theorem exec_next_index_stack_memory {i : Instr} {s t : State} (h : exec i s = .next t) :
    (t.i = s.i ∨ (∃ a, i = .setIndex a) ∨ (∃ x, i = .addToIndex x) ∨ ∃ x, i = .setIndexToDigitSprite x) ∧
      (t.sp = s.sp ∨ (∃ a, i = .call a) ∨ i = .ret) ∧ (t.stack = s.stack ∨ ∃ a, i = .call a) ∧
      (t.mem = s.mem ∨ (∃ x, i = .storeRegistersToMemory x) ∨ ∃ x, i = .convertToDecimalDigits x) := by
  cases i with
  | call addr => obtain ⟨-, rfl⟩ := execCall_next h; simp
  | ret => obtain ⟨-, rfl⟩ := execReturn_next h; simp
  | skipIfKeyPressed x => obtain ⟨c, rfl⟩ := execSkipIfKeyPressed_next h; simp
  | skipIfKeyNotPressed x => obtain ⟨c, rfl⟩ := execSkipIfKeyNotPressed_next h; simp
  | waitForKey x => obtain ⟨k, -, rfl⟩ | ⟨-, rfl⟩ := execWaitForKey_next h <;> simp
  | drawSprite x y n => obtain ⟨-, e⟩ := checkRange_next h; cases e; simp
  | loadRegistersFromMemory x => obtain ⟨-, e⟩ := checkRange_next h; cases e; simp
  | storeRegistersToMemory x => obtain ⟨-, e⟩ := checkRange_next h; cases e; simp
  | convertToDecimalDigits x => obtain ⟨-, e⟩ := checkRange_next h; cases e; simp
  | _ => cases h; simp

/-- Settles O13: each part of the state is unchanged, or the instruction is one of the part's writers. -/
theorem accessMatrixRespected : Obligations.AccessMatrixRespected := by
  intro i s t h
  obtain ⟨htick, hdt, hst⟩ := exec_next_timers h
  obtain ⟨hi, hsp, hstack, hmem⟩ := exec_next_index_stack_memory h
  have hregs (r : Reg) (hne : t.readV r ≠ s.readV r) : r ∈ destinationRegs i :=
    Decidable.byContradiction fun hr => hne (exec_next_readV h hr)
  exact ⟨htick, hregs, hi.resolve_left, hsp.resolve_left, hstack.resolve_left,
    fun hne => (hdt.resolve_left hne).imp fun _ => And.left,
    fun hne => (hst.resolve_left hne).imp fun _ => And.left, hmem.resolve_left⟩

/-! ### The writers of `VF` -/

theorem flagReg_mem_regsUpTo {x : Reg} : flagReg ∈ regsUpTo x ↔ x = flagReg :=
  mem_regsUpTo.trans (top_le_iff (a := x))

/-- Settles O14: a register that changes is a destination of the instruction, and register 15 is a destination of the
six flag writers and of the instructions that name it. -/
theorem flagRegisterWriters : Obligations.FlagRegisterWriters := by
  intro i s t h hne
  obtain ⟨-, hregs, -⟩ := accessMatrixRespected i s t h
  have hdest : flagReg ∈ destinationRegs i := hregs flagReg hne
  cases i with
  | add | subtract | subtractReversed | shiftRight | shiftLeft | drawSprite => simp
  | setImmediate x _ | addImmediate x _ | copyRegister x _ | bitOr x _ | bitAnd x _ | bitXor x _
  | generateRandomByte x _ | loadDelayTimer x | waitForKey x => obtain rfl := List.mem_singleton.mp hdest; simp
  | loadRegistersFromMemory x => obtain rfl := flagReg_mem_regsUpTo.mp hdest; simp
  | _ => cases hdest

/-! ### Read columns: other values in the timers -/

/-- The state with other values in `DT`, `ST` and `TICK`. -/
def State.withTimers (s : State) (d b : Byte) (k : BitVec 3) : State := { s with dt := d, st := b, tick := k }

/-- A result whose next state, when it has one, is changed by `f`. -/
def mapNext (f : State → State) : Result → Result
  | .next t => .next (f t)
  | .fault e => .fault e
  | .refused e => .refused e

section
variable (s : State) (d b : Byte) (k : BitVec 3)

theorem State.push_withTimers (w : Word) : (s.withTimers d b k).push w = (s.push w).withTimers d b k := by
  by_cases hs : s.sp.val < 16 <;> simp [State.push, State.withTimers, hs]

theorem State.clearDisplay_withTimers : (s.withTimers d b k).clearDisplay = s.clearDisplay.withTimers d b k := by
  cases hd : s.display <;> simp [State.clearDisplay, State.withTimers, State.callOut, hd]

theorem State.askDraw_withTimers (x y : Byte) (rows : List Byte) :
    (s.withTimers d b k).askDraw x y rows = (s.askDraw x y rows).withTimers d b k := by
  cases hd : s.display <;> simp [State.askDraw, State.withTimers, State.callOut, hd]

theorem loadRegs_withTimers (m : Memory) (a : Nat) (rs : List Reg) :
    loadRegs m a rs (s.withTimers d b k) = (loadRegs m a rs s).withTimers d b k := by
  induction rs generalizing s with
  | nil => rfl
  | cons r rs ih => exact ih (s.writeV r (m.read (a + r.val)))

theorem waitOutcome_withTimers (x : Reg) : waitOutcome x (s.withTimers d b k) = (waitOutcome x s).withTimers d b k := by
  have hanswer : (s.withTimers d b k).waitAnswer = s.waitAnswer := rfl
  unfold waitOutcome
  rw [hanswer]
  cases s.waitAnswer <;> rfl

theorem checkRange_withTimers {a n : Nat} {f : State → State} {t u : State} (h : u = f t) :
    checkRange a n (s.withTimers d b k) (.next u) = mapNext f (checkRange a n s (.next t)) := by
  unfold checkRange
  cases firstIllegal a n with
  | none => exact congrArg Host.Outcome.next h
  | some bad => rfl

theorem execCall_withTimers (addr : Addr) :
    execCall addr (s.withTimers d b k) = mapNext (·.withTimers d b k) (execCall addr s) := by
  have hfull : (s.withTimers d b k).stackFull = s.stackFull := rfl
  unfold execCall
  rw [hfull]
  cases s.stackFull
  · exact congrArg (fun u => Host.Outcome.next (u.finishAt (zextAddr addr))) (s.push_withTimers d b k (s.pc + 2))
  · rfl

theorem execReturn_withTimers :
    execReturn (s.withTimers d b k) = mapNext (·.withTimers d b k) (execReturn s) := by
  have hsp : (s.withTimers d b k).sp = s.sp := rfl
  unfold execReturn
  rw [hsp]
  split <;> rfl

theorem execSkipIfKeyPressed_withTimers (x : Reg) :
    execSkipIfKeyPressed x (s.withTimers d b k) = mapNext (·.withTimers d b k) (execSkipIfKeyPressed x s) := by
  have hkey : (s.withTimers d b k).readV x = s.readV x := rfl
  unfold execSkipIfKeyPressed
  rw [hkey]
  cases keyNamed (s.readV x) <;> rfl

theorem execSkipIfKeyNotPressed_withTimers (x : Reg) :
    execSkipIfKeyNotPressed x (s.withTimers d b k) = mapNext (·.withTimers d b k) (execSkipIfKeyNotPressed x s) := by
  have hkey : (s.withTimers d b k).readV x = s.readV x := rfl
  unfold execSkipIfKeyNotPressed
  rw [hkey]
  cases keyNamed (s.readV x) <;> rfl

theorem execDrawSprite_withTimers (x y : Reg) (n : Fin 16) :
    execDrawSprite x y n (s.withTimers d b k) = mapNext (·.withTimers d b k) (execDrawSprite x y n s) := by
  unfold execDrawSprite
  simp only [State.askDraw_withTimers]
  exact checkRange_withTimers s d b k rfl

theorem execLoadRegistersFromMemory_withTimers (x : Reg) :
    execLoadRegistersFromMemory x (s.withTimers d b k) =
      mapNext (·.withTimers d b k) (execLoadRegistersFromMemory x s) :=
  checkRange_withTimers s d b k (congrArg State.advance (loadRegs_withTimers s d b k s.mem s.transferBase (regsUpTo x)))

/-- With other timer values a meaning answers alike, and its next state differs in the timers alone; LoadDelayTimer
does so when `DT` is kept. -/
theorem exec_withTimers (i : Instr) (h : (∀ x, i ≠ .loadDelayTimer x) ∨ d = s.dt) :
    ∃ d' b', exec i (s.withTimers d b k) = mapNext (·.withTimers d' b' k) (exec i s) := by
  cases i with
  | storeDelayTimer x => exact ⟨s.readV x, b, rfl⟩
  | storeSoundTimer x => exact ⟨d, s.readV x, rfl⟩
  | loadDelayTimer x =>
    obtain rfl := h.resolve_left (not_forall_not.mpr ⟨x, rfl⟩)
    exact ⟨s.dt, b, rfl⟩
  | clearScreen =>
    exact ⟨d, b, congrArg (fun u : State => Host.Outcome.next u.advance) (s.clearDisplay_withTimers d b k)⟩
  | call addr => exact ⟨d, b, execCall_withTimers s d b k addr⟩
  | ret => exact ⟨d, b, execReturn_withTimers s d b k⟩
  | skipIfKeyPressed x => exact ⟨d, b, execSkipIfKeyPressed_withTimers s d b k x⟩
  | skipIfKeyNotPressed x => exact ⟨d, b, execSkipIfKeyNotPressed_withTimers s d b k x⟩
  | waitForKey x => exact ⟨d, b, congrArg Host.Outcome.next (waitOutcome_withTimers s d b k x)⟩
  | drawSprite x y n => exact ⟨d, b, execDrawSprite_withTimers s d b k x y n⟩
  | storeRegistersToMemory x => exact ⟨d, b, checkRange_withTimers s d b k rfl⟩
  | loadRegistersFromMemory x => exact ⟨d, b, execLoadRegistersFromMemory_withTimers s d b k x⟩
  | convertToDecimalDigits x => exact ⟨d, b, checkRange_withTimers s d b k rfl⟩
  | _ => exact ⟨d, b, rfl⟩

end

/-- Settles O15: other timer values going in change nothing but the timer values coming out. -/
theorem timersReadOnlyByLoadDelayTimer : Obligations.TimersReadOnlyByLoadDelayTimer := by
  intro i s d b k h
  obtain ⟨d', b', hexec⟩ := exec_withTimers s d b k i h
  exact ⟨fun t ht => ⟨t.withTimers d' b' k, hexec.trans (congrArg (mapNext _) ht), rfl⟩,
    fun f hf => hexec.trans (congrArg (mapNext _) hf)⟩

/-! ### The state after reset -/

@[simp] theorem State.readV_reset (r : Reg) : State.reset.readV r = 0 := Vector.getElem_replicate r.isLt

@[simp] theorem State.stack_reset (j : Fin 16) : State.reset.stack[j.val] = 0 := Vector.getElem_replicate j.isLt

/-- Settles O16: reset fills the registers and the slots with 0, lists no byte of memory and no call, and sets the rest
to 0. -/
theorem resetIsZero : Obligations.ResetIsZero :=
  ⟨State.readV_reset, rfl, rfl, rfl, State.stack_reset, rfl, rfl, rfl, Memory.read_nil, rfl⟩

/-- Settles O17: the empty memory is canonical, slots and `PC` are 0, and nothing is held. -/
theorem resetHasInvariant : Obligations.ResetHasInvariant where
  memory := Memory.wf_nil
  slots j := by simp
  pcBound := Nat.zero_le _
  heldWaits := nofun

end Sys2Proof.Machine
end

section
/-! The invariant of memory, return slots, `PC` and the held mark (20_memory.md R56; 40_cycle.md R104, R107;
41_control_flow.md R121, R122, R127), that canonical memories are extensional (20_memory.md R63, R64), and the range
faults of the transfers (20_memory.md R57; 60_exceptions.md R204). -/

namespace Sys2Proof.Machine

/-! ### Every step keeps the invariant -/

@[simp] theorem toNat_zextAddr (a : Addr) : (zextAddr a).toNat = a.toNat := BitVec.toNat_setWidth_of_le (by decide)

@[simp] theorem toNat_zextByte (b : Byte) : (zextByte b).toNat = b.toNat := BitVec.toNat_setWidth_of_le (by decide)

/-- The sum of an indexed jump does not wrap: its largest value is 0xFF + 0xFFF (R127). -/
theorem toNat_indexedTarget_le (b : Byte) (a : Addr) : (zextByte b + zextAddr a).toNat ≤ 0x10FE := by
  have hb := b.isLt
  have ha := a.isLt
  rw [BitVec.toNat_add, toNat_zextByte, toNat_zextAddr]
  omega

/-- The fetched instruction depends on `PC` and the memory alone (40_cycle.md R102). -/
theorem State.fetched_congr {s t : State} (hpc : t.pc = s.pc) (hmem : t.mem = s.mem) : t.fetched = s.fetched := by
  simp [State.fetched, State.fetchWord, hpc, hmem]

theorem exec_keeps_wf {i : Instr} {s t : State} (hm : s.mem.wf) (h : exec i s = .next t) : t.mem.wf := by
  obtain hkeep | ⟨bs, hlegal, hwrite⟩ := exec_next_mem h
  · rwa [hkeep]
  · rw [hwrite]; exact Memory.writeBytes_wf hm hlegal

/-- A Call that could be fetched pushes at most 0x1000 (R121, R122). -/
theorem exec_keeps_slots {i : Instr} {s t : State} (hfetch : s.pc.toNat + 2 ≤ Config.memSize)
    (hs : ∀ k : Fin 16, s.stack[k.val].toNat ≤ 0x1000) (h : exec i s = .next t) (k : Fin 16) :
    t.stack[k.val].toNat ≤ 0x1000 := by
  rw [memSize_eq] at hfetch
  obtain hkeep | ⟨hsp, hpush⟩ := exec_next_stack h
  · simpa [hkeep] using hs k
  · have hret : (s.pc + 2).toNat ≤ 0x1000 := by bv_omega
    simp only [hpush, Vector.getElem_set]
    split
    · exact hret
    · exact hs k

/-- Each way `PC` can go ends at most at 0x10FE (R104, R122, R127). -/
theorem exec_keeps_pcBound {i : Instr} {s t : State} (hfetch : s.pc.toNat + 2 ≤ Config.memSize)
    (hs : ∀ k : Fin 16, s.stack[k.val].toNat ≤ 0x1000) (h : exec i s = .next t) : t.pc.toNat ≤ 0x10FE := by
  rw [memSize_eq] at hfetch
  obtain hpc | hpc | hpc | ⟨a, hpc⟩ | ⟨b, a, hpc⟩ | ⟨k, hpc⟩ := exec_next_pc h <;> rw [hpc]
  · omega
  · bv_omega
  · bv_omega
  · have ha := a.isLt
    rw [toNat_zextAddr]
    omega
  · exact toNat_indexedTarget_le b a
  · have hk := hs k
    omega

/-- A meaning that leaves the cycle held leaves the WaitForKey where it was fetched (R107). -/
theorem exec_fetched_held {s t : State} (h : exec s.fetched s = .next t) (ht : t.held = true) :
    ∃ x, t.fetched = .waitForKey x := by
  obtain ⟨⟨x, hx⟩, -, rfl⟩ := exec_next_held h ht
  exact ⟨x, (State.fetched_congr (by simp) (by simp)).trans hx⟩

theorem exec_fetched_keeps_inv {s t : State} (hs : s.Inv) (hfetch : s.pc.toNat + 2 ≤ Config.memSize)
    (h : exec s.fetched s = .next t) : t.Inv where
  memory := exec_keeps_wf hs.memory h
  slots := exec_keeps_slots hfetch hs.slots h
  pcBound := exec_keeps_pcBound hfetch hs.slots h
  heldWaits := exec_fetched_held h

theorem State.timerStep_keeps_inv {s : State} (hs : s.Inv) : s.timerStep.Inv where
  memory := by simpa using hs.memory
  slots := by simpa using hs.slots
  pcBound := by simpa using hs.pcBound
  heldWaits := by
    rw [State.timerStep_held, State.fetched_congr s.timerStep_pc s.timerStep_mem]
    exact hs.heldWaits

/-- Settles O18: the meaning of the fetched instruction keeps the invariant, and so does the timer step after it. -/
theorem stepKeepsInvariant : Obligations.StepKeepsInvariant := by
  intro s t hs h
  obtain ⟨hfetch, u, hexec, rfl⟩ := step_next h
  have hu : u.Inv := exec_fetched_keeps_inv hs hfetch hexec
  split
  · exact hu
  · exact State.timerStep_keeps_inv hu

/-! ### Canonical memories are extensional -/

theorem Memory.mem_of_read_ne_zero {m : Memory} {a : Nat} (h : m.read a ≠ 0) : (a, m.read a) ∈ m := by
  induction m with
  | nil => exact absurd rfl h
  | cons c m ih =>
    by_cases hc : c.1 = a
    · subst hc; simp [Memory.read_cons]
    · rw [Memory.read_cons, if_neg hc] at h ⊢
      exact List.mem_cons_of_mem c (ih h)

/-- In a canonical memory a listed cell is read back: no earlier cell has its address. -/
theorem Memory.read_of_mem {m : Memory} {c : Host.Cell} (hm : m.wf) (hc : c ∈ m) : m.read c.1 = c.2 := by
  induction m with
  | nil => cases hc
  | cons d m ih =>
    obtain rfl | hc := List.mem_cons.mp hc
    · simp [Memory.read_cons]
    · have hlt : d.1 < c.1 := (List.pairwise_cons.mp hm.1).1 c hc
      rw [Memory.read_cons, if_neg hlt.ne, ih (Memory.wf_tail hm) hc]

/-- The cells of a canonical memory are the nonzero bytes it reads. -/
theorem Memory.mem_iff_read {m : Memory} (hm : m.wf) {c : Host.Cell} : c ∈ m ↔ m.read c.1 = c.2 ∧ c.2 ≠ 0 := by
  constructor
  · intro hc
    exact ⟨Memory.read_of_mem hm hc, (hm.2 c hc).2⟩
  · rintro ⟨hread, hne⟩
    have hmem : (c.1, m.read c.1) ∈ m := Memory.mem_of_read_ne_zero (hread ▸ hne)
    rwa [hread] at hmem

/-- Settles O22: both memories list the same cells, and in the same order, by rising address. -/
theorem canonicalMemoryIsExtensional : Obligations.CanonicalMemoryIsExtensional := by
  intro m m' hm hm' hread
  have hcells (c : Host.Cell) : c ∈ m ↔ c ∈ m' := by
    rw [Memory.mem_iff_read hm, Memory.mem_iff_read hm', hread]
  have : Std.Asymm (fun c d : Host.Cell => c.1 < d.1) := ⟨fun _ _ => Nat.lt_asymm⟩
  exact hm.1.eq_of_mem_iff hm'.1 hcells

/-! ### Transfers that would leave the memory -/

/-- Settles O45: each of the four transfers starts with the range check of its addresses, and the check fails. -/
theorem transferRangeFaults : Obligations.TransferRangeFaults := by
  intro x y n s
  have fails {k : Nat} (hk : 0 < k) (hout : 4096 < s.i.toNat + k) (r : Result) :
      checkRange s.transferBase k s r = .fault (.memoryOutOfRange (max s.i.toNat 4096)) :=
    checkRange_illegal s r (by rw [State.transferBase, memSize_eq]; omega)
  refine ⟨fun h => ⟨?_, ?_⟩, fun h => ?_, fun hn h => ?_⟩
  · exact fails (k := x.val + 1) (by omega) (by omega) _
  · exact fails (k := x.val + 1) (by omega) (by omega) _
  · exact fails (k := 3) (by omega) (by omega) _
  · exact fails hn h _

end Sys2Proof.Machine
end

section
/-! The decoder and the encoder (30_encoding.md R71 to R89): the round trips, the opcode table and the `UNKNOWN` set,
the decoder block and the batch form.

Three facts carry the section. What the decoder answers is well formed and is encoded as the word it came from
(`decode_decodesTo`, the one case split of the decoder); what is so encoded fits its row of the opcode map
(`DecodesTo.exists_row_fits`); and a word that fits a row is not `UNKNOWN` (`unknownWord_of_fits`). -/

namespace Sys2Proof.Machine

/-! ### Words and their fields -/

theorem toReg_val (b : BitVec 4) : (toReg b).val = b.toNat := rfl

theorem wordNNN_of_fields {w : Word} {op : BitVec 4} (hop : (opField w).toNat = op.toNat) :
    wordNNN op (nnnField w) = w := by
  rw [opField_toNat] at hop
  apply BitVec.eq_of_toNat_eq
  rw [wordNNN_toNat, nnnField_toNat]
  omega

theorem wordXKK_of_fields {w : Word} {op : BitVec 4} {kk : Byte} (hop : (opField w).toNat = op.toNat)
    (hkk : (kkField w).toNat = kk.toNat) : wordXKK op (toReg (xField w)) kk = w := by
  rw [opField_toNat] at hop
  rw [kkField_toNat] at hkk
  apply BitVec.eq_of_toNat_eq
  rw [wordXKK_toNat, toReg_val, xField_toNat]
  omega

theorem wordXYN_of_fields {w : Word} {op n : BitVec 4} (hop : (opField w).toNat = op.toNat)
    (hn : (nField w).toNat = n.toNat) : wordXYN op (toReg (xField w)) (toReg (yField w)) n = w := by
  rw [opField_toNat] at hop
  rw [nField_toNat] at hn
  apply BitVec.eq_of_toNat_eq
  rw [wordXYN_toNat, toReg_val, toReg_val, xField_toNat, yField_toNat]
  omega

theorem word_ext {w v : Word} (hop : opField w = opField v) (hx : xField w = xField v) (hy : yField w = yField v)
    (hn : nField w = nField v) : w = v := by
  have fields (u : Word) : wordXYN (opField u) (toReg (xField u)) (toReg (yField u)) (nField u) = u :=
    wordXYN_of_fields rfl rfl
  rw [← fields w, ← fields v, hop, hx, hy, hn]

@[simp] theorem yField_wordXKK (op : BitVec 4) (x : Reg) (kk : Byte) :
    yField (wordXKK op x kk) = kk.extractLsb' 4 4 := by
  apply BitVec.eq_of_toNat_eq
  rw [yField_toNat, wordXKK_toNat, BitVec.extractLsb'_toNat, Nat.shiftRight_eq_div_pow]
  omega

@[simp] theorem nField_wordXKK (op : BitVec 4) (x : Reg) (kk : Byte) :
    nField (wordXKK op x kk) = kk.extractLsb' 0 4 := by
  apply BitVec.eq_of_toNat_eq
  rw [nField_toNat, wordXKK_toNat, BitVec.extractLsb'_toNat, Nat.shiftRight_eq_div_pow]
  omega

/-! ### Words under the masks of the opcode map -/

@[simp] theorem opField_and (w m : Word) : opField (w &&& m) = opField w &&& opField m := BitVec.extractLsb'_and
@[simp] theorem xField_and (w m : Word) : xField (w &&& m) = xField w &&& xField m := BitVec.extractLsb'_and
@[simp] theorem yField_and (w m : Word) : yField (w &&& m) = yField w &&& yField m := BitVec.extractLsb'_and
@[simp] theorem nField_and (w m : Word) : nField (w &&& m) = nField w &&& nField m := BitVec.extractLsb'_and
@[simp] theorem kkField_and (w m : Word) : kkField (w &&& m) = kkField w &&& kkField m := BitVec.extractLsb'_and

/-- A mask acts on each nibble of a word. -/
theorem and_wordXYN (w : Word) (mop mn : BitVec 4) (mx my : Reg) :
    w &&& wordXYN mop mx my mn =
      wordXYN (opField w &&& mop) (toReg (xField w &&& ofReg mx)) (toReg (yField w &&& ofReg my))
        (nField w &&& mn) := by
  apply word_ext <;> simp

theorem nibble_and_15 (b : BitVec 4) : b &&& 15#4 = b := BitVec.and_allOnes

@[simp] theorem and_F000 (w : Word) : w &&& 0xF000#16 = wordXYN (opField w) 0 0 0 :=
  (and_wordXYN w 15 0 0 0).trans (by simp [nibble_and_15, ofReg, toReg])

@[simp] theorem and_F00F (w : Word) : w &&& 0xF00F#16 = wordXYN (opField w) 0 0 (nField w) :=
  (and_wordXYN w 15 15 0 0).trans (by simp [nibble_and_15, ofReg, toReg])

@[simp] theorem and_F0FF (w : Word) : w &&& 0xF0FF#16 = wordXYN (opField w) 0 (toReg (yField w)) (nField w) :=
  (and_wordXYN w 15 15 0 15).trans (by simp [nibble_and_15, ofReg, toReg])

@[simp] theorem and_FF0F (w : Word) : w &&& 0xFF0F#16 = wordXYN (opField w) (toReg (xField w)) 0 (nField w) :=
  (and_wordXYN w 15 15 15 0).trans (by simp [nibble_and_15, ofReg, toReg])

/-! ### What the decoder answers -/

/-- The bits of `w` that the encoder writes again for the instruction `i` that `w` decodes to: all of them, but for
the ignored `y` field of the two shifts (30_encoding.md R81; log 9). -/
def encodedBits (i : Instr) (w : Word) : Word := if tagOf i = 15 ∨ tagOf i = 17 then w &&& 0xFF0F else w

/-- The instruction `i` is a well-formed reading of the word `w`. -/
structure DecodesTo (w : Word) (i : Instr) : Prop where
  wellFormed : i.wellFormed = true
  encodes : encode i = encodedBits i w

theorem DecodesTo.unknown {w : Word} (h : unknownWord w = true) : DecodesTo w (.unknown w) := ⟨h, rfl⟩

/-- The shifts' words with the `y` field cleared. -/
theorem wordXYN_zero_of_fields {w : Word} {op n : BitVec 4} (hop : (opField w).toNat = op.toNat)
    (hn : (nField w).toNat = n.toNat) : wordXYN op (toReg (xField w)) 0 n = w &&& 0xFF0F#16 := by
  rw [and_FF0F, BitVec.eq_of_toNat_eq hop, BitVec.eq_of_toNat_eq hn]

theorem mem_unknownLow8_iff (n : BitVec 4) : n ∈ unknownLow8 ↔ n.toNat ∉ [0, 1, 2, 3, 4, 5, 6, 7, 14] := by
  revert n; decide

theorem decodeArithmetic_decodesTo {w : Word} (hop : (opField w).toNat = 0x8) : DecodesTo w (decodeArithmetic w) := by
  unfold decodeArithmetic
  split
  case h_7 hn | h_9 hn => exact ⟨rfl, wordXYN_zero_of_fields hop hn⟩
  case h_10 h0 h1 h2 h3 h4 h5 h6 h7 hE =>
    have hlow : nField w ∈ unknownLow8 := by
      simpa [mem_unknownLow8_iff] using ⟨h0, h1, h2, h3, h4, h5, h6, h7, hE⟩
    exact .unknown (by simp [unknownWord, hop, hlow])
  all_goals exact ⟨rfl, wordXYN_of_fields hop ‹_›⟩

theorem decodeKey_decodesTo {w : Word} (hop : (opField w).toNat = 0xE) : DecodesTo w (decodeKey w) := by
  unfold decodeKey
  split
  case h_3 h9E hA1 =>
    have hkk : kkField w ∉ keyBytes := by
      rw [← List.mem_map_of_injective fun _ _ => BitVec.eq_of_toNat_eq]
      simpa [keyBytes] using ⟨h9E, hA1⟩
    exact .unknown (by simp [unknownWord, hop, hkk])
  all_goals exact ⟨rfl, wordXKK_of_fields hop ‹_›⟩

theorem decodeMisc_decodesTo {w : Word} (hop : (opField w).toNat = 0xF) : DecodesTo w (decodeMisc w) := by
  unfold decodeMisc
  split
  case h_10 h07 h0A h15 h18 h1E h29 h33 h55 h65 =>
    have hkk : kkField w ∉ miscBytes := by
      rw [← List.mem_map_of_injective fun _ _ => BitVec.eq_of_toNat_eq]
      simpa [miscBytes] using ⟨h07, h0A, h15, h18, h1E, h29, h33, h55, h65⟩
    exact .unknown (by simp [unknownWord, hop, hkk])
  all_goals exact ⟨rfl, wordXKK_of_fields hop ‹_›⟩

theorem decodeFamily_decodesTo {w : Word} (hE0 : w ≠ 0x00E0#16) (hEE : w ≠ 0x00EE#16) :
    DecodesTo w (decodeFamily w) := by
  unfold decodeFamily
  split
  case h_1 hop | h_2 hop | h_10 hop | h_11 hop => exact ⟨rfl, wordNNN_of_fields hop⟩
  case h_3 hop | h_4 hop | h_6 hop | h_7 hop | h_12 hop => exact ⟨rfl, wordXKK_of_fields hop rfl⟩
  case h_5 hop | h_9 hop =>
    split
    case isTrue hn => exact ⟨rfl, wordXYN_of_fields hop (congrArg BitVec.toNat hn)⟩
    case isFalse hn => exact .unknown (by simpa [unknownWord, hop] using hn)
  case h_8 hop => exact decodeArithmetic_decodesTo hop
  case h_13 hop => exact ⟨rfl, wordXYN_of_fields hop rfl⟩
  case h_14 hop => exact decodeKey_decodesTo hop
  case h_15 hop => exact decodeMisc_decodesTo hop
  case h_16 =>
    have hlt : (opField w).toNat < 16 := (opField w).isLt
    have hop : (opField w).toNat = 0 := by grind
    exact .unknown (by simp [unknownWord, hop, hE0, hEE])

/-- The decoder's answer is well formed, and encoding it gives the word back, but for a shift's `y` field. -/
theorem decode_decodesTo (w : Word) : DecodesTo w (decode w) := by
  unfold decode
  split
  case isTrue h => exact ⟨rfl, h.symm⟩
  case isFalse hE0 =>
    split
    case isTrue h => exact ⟨rfl, h.symm⟩
    case isFalse hEE => exact decodeFamily_decodesTo hE0 hEE

/-- Settles O2: the decoder's answer is encoded as `encodedBits` of the word. -/
theorem encodeOfDecode : Obligations.EncodeOfDecode := by
  intro w
  have h : encode (decode w) = encodedBits (decode w) w := (decode_decodesTo w).encodes
  exact ⟨fun hright hleft => h.trans (if_neg (not_or.mpr ⟨hright, hleft⟩)),
    fun hshift => h.trans (if_pos hshift)⟩

/-! ### The rows of the opcode map -/

theorem Row.fits_iff {r : Row} {w : Word} : r.fits w = true ↔ w &&& r.mask = r.bits := beq_iff_eq

/-- The row of an instruction, by its tag. -/
def rowOf (i : Instr) : Option Row := opcodeRows.find? (·.tag == tagOf i)

/-- A word read as a named instruction fits that instruction's row; a shift's mask leaves the `y` field out. -/
theorem DecodesTo.exists_row_fits {w : Word} {i : Instr} (h : DecodesTo w i) (hi : tagOf i ≠ 34) :
    ∃ r ∈ opcodeRows, r.tag = tagOf i ∧ r.fits w = true := by
  suffices ∃ r, rowOf i = some r ∧ w &&& r.mask = r.bits by
    obtain ⟨r, hr, hfit⟩ := this
    exact ⟨r, List.mem_of_find?_eq_some hr, by simpa using List.find?_some hr, Row.fits_iff.mpr hfit⟩
  obtain ⟨-, hw⟩ := h
  cases i with
  | unknown raw => exact absurd rfl hi
  | shiftRight x | shiftLeft x =>
    have hmask : w &&& 0xF00F#16 = w &&& 0xFF0F#16 &&& 0xF00F#16 := by rw [and_FF0F]; simp
    refine ⟨_, rfl, hmask.trans ?_⟩
    rw [show w &&& 0xFF0F#16 = _ from hw.symm]
    simp [encode]; rfl
  | clearScreen | ret => obtain rfl := hw; exact ⟨_, rfl, rfl⟩
  | _ => obtain rfl := hw; exact ⟨_, rfl, by simp [encode]; rfl⟩

/-- The four masks of the opcode map, and the families whose rows have each (30_encoding.md R77 to R84). -/
theorem opcodeRows_masks : ∀ r ∈ opcodeRows,
    r.mask = 0xFFFF#16 ∨
    (r.mask = 0xF000#16 ∧ opField r.bits ∈ [1#4, 2#4, 3#4, 4#4, 6#4, 7#4, 10#4, 11#4, 12#4, 13#4]) ∨
    (r.mask = 0xF00F#16 ∧ opField r.bits ∈ [5#4, 8#4, 9#4]) ∨
    (r.mask = 0xF0FF#16 ∧ opField r.bits ∈ [14#4, 15#4]) := by decide

theorem opcodeRows_bits_named : ∀ r ∈ opcodeRows, unknownWord r.bits = false := by decide

/-- A word that fits a row is no `UNKNOWN` word: the row's mask covers the fields that `unknownWord` reads, and the
row's own bits are no `UNKNOWN` word. -/
theorem unknownWord_of_fits {r : Row} {w : Word} (hr : r ∈ opcodeRows) (h : r.fits w = true) :
    unknownWord w = false := by
  rw [← opcodeRows_bits_named r hr]
  have hw : w &&& r.mask = r.bits := Row.fits_iff.mp h
  obtain hm | ⟨hm, hfamily⟩ | ⟨hm, hfamily⟩ | ⟨hm, hfamily⟩ := opcodeRows_masks r hr
  · have heq : w = r.bits := by rw [← hw, hm]; exact BitVec.and_allOnes.symm
    rw [heq]
  all_goals simp only [List.mem_cons, List.not_mem_nil, or_false] at hfamily
  · have hop : opField w = opField r.bits := by rw [← hw, hm, and_F000, opField_wordXYN]
    rcases hfamily with hf | hf | hf | hf | hf | hf | hf | hf | hf | hf <;> simp [unknownWord, hop, hf]
  · have hop : opField w = opField r.bits := by rw [← hw, hm, and_F00F, opField_wordXYN]
    have hn : nField w = nField r.bits := by rw [← hw, hm, and_F00F, nField_wordXYN]
    rcases hfamily with hf | hf | hf <;> simp [unknownWord, hop, hf, hn]
  · have hop : opField w = opField r.bits := by rw [← hw, hm, and_F0FF, opField_wordXYN]
    have hkk : kkField w = kkField r.bits := by rw [← hw, hm, kkField_and]; exact BitVec.and_allOnes.symm
    rcases hfamily with hf | hf <;> simp [unknownWord, hop, hf, hkk]

/-- Two rows that agree on the bits that both masks cover are the same row. -/
theorem opcodeRows_disjoint : ∀ r ∈ opcodeRows, ∀ r' ∈ opcodeRows,
    r.bits &&& r'.mask = r'.bits &&& r.mask → r = r' := by decide

/-- Settles O5: a word under both masks is each row's bits under the other's mask. -/
theorem opcodeRowsDisjoint : Obligations.OpcodeRowsDisjoint := by
  intro r hr r' hr' w h h'
  apply opcodeRows_disjoint r hr r' hr'
  rw [← Row.fits_iff.mp h, ← Row.fits_iff.mp h', BitVec.and_assoc, BitVec.and_assoc, BitVec.and_comm r.mask]

/-! ### `UNKNOWN` -/

theorem tagOf_eq_34_iff {i : Instr} : tagOf i = 34 ↔ ∃ raw, i = .unknown raw := by
  cases i <;> simp [tagOf]

theorem tag_decode_of_unknownWord {w : Word} (h : unknownWord w = true) : tagOf (decode w) = 34 := by
  by_contra hi
  obtain ⟨r, hr, -, hfit⟩ := (decode_decodesTo w).exists_row_fits hi
  rw [unknownWord_of_fits hr hfit] at h
  cases h

theorem decode_eq_unknown_of_tag {w : Word} (h : tagOf (decode w) = 34) :
    decode w = .unknown w ∧ unknownWord w = true := by
  obtain ⟨raw, hraw⟩ := tagOf_eq_34_iff.mp h
  obtain ⟨hwf, henc⟩ := hraw ▸ decode_decodesTo w
  obtain rfl : raw = w := henc
  exact ⟨hraw, hwf⟩

theorem tag_decode_eq_34_iff {w : Word} : tagOf (decode w) = 34 ↔ unknownWord w = true :=
  ⟨fun h => (decode_eq_unknown_of_tag h).2, tag_decode_of_unknownWord⟩

theorem decode_of_unknownWord {w : Word} (h : unknownWord w = true) : decode w = .unknown w :=
  (decode_eq_unknown_of_tag (tag_decode_of_unknownWord h)).1

/-- Settles O4: `UNKNOWN` carries the word it was read from, and no word with a row is one. -/
theorem unknownExactly : Obligations.UnknownExactly := by
  intro w w'
  constructor
  · intro h
    obtain ⟨hdecode, hunknown⟩ := decode_eq_unknown_of_tag (congrArg tagOf h)
    exact ⟨Instr.unknown.inj (h.symm.trans hdecode), hunknown⟩
  · rintro ⟨rfl, hunknown⟩
    exact decode_of_unknownWord hunknown

/-- A word has the tag of the row it fits. -/
theorem tag_decode_of_fits {r : Row} {w : Word} (hr : r ∈ opcodeRows) (h : r.fits w = true) :
    tagOf (decode w) = r.tag := by
  have hnamed : tagOf (decode w) ≠ 34 := by
    rw [Ne, tag_decode_eq_34_iff, unknownWord_of_fits hr h]
    exact Bool.false_ne_true
  obtain ⟨r', hr', htag, hfit⟩ := (decode_decodesTo w).exists_row_fits hnamed
  rw [← htag, opcodeRowsDisjoint r hr r' hr' w h hfit]

/-- Settles O3: the decoder's answer fits its tag's row, no word fits two, and a word without a row is left to
`UNKNOWN`. -/
theorem dispatchAgreesWithOpcodeTable : Obligations.DispatchAgreesWithOpcodeTable := by
  refine fun w => ⟨fun r hr h => tag_decode_of_fits hr h, fun hnone => ?_⟩
  have htag : tagOf (decode w) = 34 := by
    by_contra hi
    obtain ⟨r, hr, -, hfit⟩ := (decode_decodesTo w).exists_row_fits hi
    rw [hnone r hr] at hfit
    cases hfit
  exact (decode_eq_unknown_of_tag htag).1

/-! ### Decoding an encoded instruction -/

/-- The two fixed words lie in family 0 (30_encoding.md R77). -/
theorem decode_eq_decodeFamily {w : Word} (h : opField w ≠ 0) : decode w = decodeFamily w := by
  have hne {v : Word} (hv : opField v = 0) : w ≠ v := fun e => h (e ▸ hv)
  rw [decode, if_neg (hne rfl), if_neg (hne rfl)]

/-- Settles O1: the two fixed words are recognised first, an `UNKNOWN` word decodes to itself, and every other
encoding is dispatched by its family on the fields it was assembled from. -/
theorem decodeOfEncode : Obligations.DecodeOfEncode := by
  intro i hi
  cases i with
  | clearScreen | ret => rfl
  | unknown raw => exact decode_of_unknownWord hi
  | _ => simp [encode, decode_eq_decodeFamily, decodeFamily, decodeArithmetic, decodeKey, decodeMisc]

/-! ### The decoder block -/

theorem tagOf_le_34 (i : Instr) : (tagOf i).toNat ≤ 34 := by
  cases i <;> simp [tagOf]

/-- Every named tag has a row, and the row's own bits fit it. -/
theorem exists_row_of_tag : ∀ k < 34, ∃ r ∈ opcodeRows, r.tag.toNat = k ∧ r.fits r.bits = true := by decide

theorem exists_word_of_tag {k : Nat} (hk : k ≤ 34) : ∃ w : Word, (tagOf (decode w)).toNat = k := by
  obtain hlt | rfl := hk.lt_or_eq
  · obtain ⟨r, hr, rfl, hfit⟩ := exists_row_of_tag k hlt
    exact ⟨r.bits, congrArg BitVec.toNat (tag_decode_of_fits hr hfit)⟩
  · exact ⟨0x0000, rfl⟩

theorem nnnField_eq_x_kk (w : Word) : (nnnField w).toNat = (xField w).toNat * 256 + (kkField w).toNat := by
  rw [nnnField_toNat, xField_toNat, kkField_toNat]; omega

theorem kkField_eq_y_n (w : Word) : (kkField w).toNat = (yField w).toNat * 16 + (nField w).toNat := by
  rw [kkField_toNat, yField_toNat, nField_toNat]; omega

/-- Settles O8: the tag by the instruction, `UNKNOWN` by its words, the slices by their values, and each tag by a word
of its row. -/
theorem decoderBlockOutputs : Obligations.DecoderBlockOutputs :=
  ⟨fun w => ⟨tagOf_le_34 (decode w), tag_decode_eq_34_iff, nnnField_eq_x_kk w, kkField_eq_y_n w,
    nnnField_toNat w, rfl⟩,
    fun _ => exists_word_of_tag⟩

/-! ### The batch decoder -/

theorem decodePairs_length : ∀ b : List Byte, (decodePairs b).length = b.length / 2
  | [] => rfl
  | [_] => by simp [decodePairs]
  | hi :: lo :: rest => by
    simp only [decodePairs, List.length_cons, decodePairs_length rest]; omega

theorem decodePairs_getElem? : ∀ (b : List Byte) (k : Nat), k < b.length / 2 →
    (decodePairs b)[k]? = some (decode (wordOfBytes (b.getD (2 * k) 0) (b.getD (2 * k + 1) 0)))
  | [], _, hk | [_], _, hk => by simp at hk
  | hi :: lo :: rest, 0, _ => rfl
  | hi :: lo :: rest, k + 1, hk =>
    decodePairs_getElem? rest k (by simp only [List.length_cons] at hk; omega)

/-- Settles O7: an empty or odd buffer is an error; else the pairs are decoded one by one. -/
theorem batchDecoderPairs : Obligations.BatchDecoderPairs := by
  refine fun b => ⟨fun h => if_pos h, fun hne heven => ?_⟩
  exact ⟨decodePairs b, if_neg (by omega), decodePairs_length b, decodePairs_getElem? b⟩

/-! ### Sample words -/

/-- Settles O6: the decoder evaluated at each of the seven words. -/
theorem sampleWordsDecode : Obligations.SampleWordsDecode := by
  unfold Obligations.SampleWordsDecode
  decide

end Sys2Proof.Machine
end

section
/-! The cycle of 40_cycle.md: what a step answers by what the meaning answers (R100, R101, R105), a timer accessed in
the cycle that wraps `TICK`, the held WaitForKey (R107), the settled machine (R108) and UNKNOWN (R110). -/

namespace Sys2Proof.Machine

/-! ### The step, by the answer of the meaning -/

/-- Two bytes at legal addresses are a legal fetch (R101; 20_memory.md R50). -/
theorem fetch_legal {s : State} (h : s.pc.toNat + 1 ≤ 0x0FFF) : s.pc.toNat + 2 ≤ Config.memSize :=
  Nat.succ_le_succ h

theorem step_completed {s t : State} (hfetch : s.pc.toNat + 2 ≤ Config.memSize) (hexec : exec s.fetched s = .next t)
    (ht : t.held = false) : step s = .next t.timerStep := by
  rw [step_legal hfetch, hexec]
  simp [endCycle, ht]

theorem step_held {s t : State} (hfetch : s.pc.toNat + 2 ≤ Config.memSize) (hexec : exec s.fetched s = .next t)
    (ht : t.held = true) : step s = .next t := by
  rw [step_legal hfetch, hexec]
  simp [endCycle, ht]

theorem step_exec_fault {s : State} {f : Fault} (hfetch : s.pc.toNat + 2 ≤ Config.memSize)
    (hexec : exec s.fetched s = .fault f) : step s = .fault f := by
  rw [step_legal hfetch, hexec]
  rfl

theorem step_fetch_illegal {s : State} (h : Config.memSize < s.pc.toNat + 2) :
    step s = .fault (.memoryOutOfRange (max s.pc.toNat Config.memSize)) :=
  checkRange_illegal s _ (by omega)

/-- Settles O9: the fetch is legal, and the end of the cycle answers by what the meaning answered. -/
theorem stepRunsDecodedInstruction : Obligations.StepRunsDecodedInstruction := by
  intro s i hpc hi
  obtain rfl : s.fetched = i := hi
  have hfetch := fetch_legal hpc
  exact ⟨fun _ => step_completed hfetch, fun _ => step_held hfetch, fun _ => step_exec_fault hfetch⟩

/-- Settles O10: the reported address is `PC` itself when `PC` is illegal, else the address after it, 0x1000. -/
theorem fetchOutOfRangeFaults : Obligations.FetchOutOfRangeFaults := by
  intro s
  constructor
  · intro h
    rw [step_fetch_illegal (by rw [memSize_eq]; omega), memSize_eq, max_eq_left (by omega)]
  · intro h
    rw [step_fetch_illegal (by rw [memSize_eq]; omega), memSize_eq, h]
    rfl

/-! ### A timer accessed in the cycle that wraps `TICK` -/

/-- The wrapping timer step lowers `DT` by 8, not below 0 (60_exceptions.md R214, R215). -/
theorem State.timerStep_dt_toNat_of_wrap {s : State} (h : s.tick.toNat = 7) :
    s.timerStep.dt.toNat = s.dt.toNat - 8 := by
  have hwrap : s.tick = 7 := BitVec.eq_of_toNat_eq h
  rw [State.timerStep_dt, if_pos hwrap, satSub8_toNat]

/-- Settles O27: both accesses complete, and the timer step comes after them, so it lowers the value StoreDelayTimer
wrote and LoadDelayTimer has read the value before. -/
theorem timerAccessInFiringCycle : Obligations.TimerAccessInFiringCycle := by
  intro s x hpc htick
  have hfetch := fetch_legal hpc
  constructor
  · intro hi
    have hexec : exec s.fetched s = .next (s.setDt (s.readV x)).advance := by rw [hi]; rfl
    exact ⟨_, step_completed hfetch hexec rfl, State.timerStep_dt_toNat_of_wrap htick⟩
  · intro hi
    have hexec : exec s.fetched s = .next (s.writeV x s.dt).advance := by rw [hi]; rfl
    exact ⟨_, step_completed hfetch hexec rfl, by simp, State.timerStep_dt_toNat_of_wrap htick⟩

/-! ### The held WaitForKey -/

theorem execWaitForKey_unanswered {s : State} {x : Reg} (h : s.waitAnswer = none) :
    execWaitForKey x s = .next s.hold := by
  rw [execWaitForKey, waitOutcome, h]

/-- A look that finds no answer holds the cycle, and the host's list of answers has moved on by that one. -/
theorem step_waitForKey_unanswered {s : State} {x : Reg} {rest : List (Option Key)} (hpc : s.pc.toNat + 1 ≤ 0x0FFF)
    (hi : s.fetched = .waitForKey x) (hwaits : s.inputs.waits = none :: rest) :
    step s = .next s.hold ∧ s.hold.inputs.waits = rest := by
  have hnone : s.waitAnswer = none := waitAnswer_listed (by rw [hwaits]; rfl)
  have hexec : exec s.fetched s = .next s.hold := by rw [hi]; exact execWaitForKey_unanswered hnone
  exact ⟨step_held (fetch_legal hpc) hexec s.hold_held, congrArg List.tail hwaits⟩

@[simp] theorem State.hold_fetched (s : State) : s.hold.fetched = s.fetched :=
  State.fetched_congr s.hold_pc s.hold_mem

theorem sameBlock_refl (s : State) : sameBlock s s :=
  ⟨fun _ _ => rfl, rfl, rfl, ⟨rfl, rfl⟩, ⟨rfl, rfl, rfl⟩, fun _ => rfl, rfl, rfl⟩

/-- A state has the block of `s` after a hold exactly when it has the block of `s` (R107). -/
theorem sameBlock_hold {s t : State} : sameBlock s.hold t ↔ sameBlock s t := Iff.rfl

/-- Settles O28, by induction on the number of looks: each finds `none` at the head of the host's list and holds. -/
theorem heldRunChangesNothing : Obligations.HeldRunChangesNothing := by
  intro k
  induction k with
  | zero =>
    intro s x rest hpc hi hwaits
    obtain ⟨hstep, hrest⟩ := step_waitForKey_unanswered hpc hi hwaits
    exact ⟨s.hold, run_succ_next hstep, s.hold_held, sameBlock_hold.mp (sameBlock_refl _), s.hold_fetched.trans hi,
      hrest⟩
  | succ k ih =>
    intro s x rest hpc hi hwaits
    obtain ⟨hstep, htail⟩ := step_waitForKey_unanswered hpc hi hwaits
    obtain ⟨t, hrun, hheld, hsame, hfetched, hrest⟩ := ih s.hold x rest hpc (s.hold_fetched.trans hi) htail
    exact ⟨t, (run_succ_next hstep).trans hrun, hheld, sameBlock_hold.mp hsame, hfetched, hrest⟩

/-! ### The settled machine -/

theorem State.settled_congr {s t : State} (hpc : t.pc = s.pc) (hmem : t.mem = s.mem) (h : s.settled) : t.settled := by
  rwa [State.settled, State.fetched_congr hpc hmem, hpc]

/-- A settled machine jumps to where it is, and the timer step follows. -/
theorem State.settled.step_eq {s : State} (h : s.settled) : step s = .next (s.finishAt s.pc).timerStep := by
  obtain ⟨hfetch, addr, hi, hself⟩ := h
  have hexec : exec s.fetched s = .next (s.finishAt s.pc) := by rw [hi, ← hself]; rfl
  exact step_completed hfetch hexec rfl

theorem State.timerStep_calls_cases (s : State) :
    s.timerStep.calls = s.calls ∨ s.timerStep.calls = s.calls ++ [.toneEnd] := by
  rw [State.timerStep_calls]
  split
  · exact .inr rfl
  · exact .inl (List.append_nil _)

/-- Settles O29: the jump to itself leaves everything, and the timer step changes the timers and may end the tone. -/
theorem settledStaysSettled : Obligations.SettledStaysSettled := by
  intro s h
  refine ⟨_, h.step_eq, State.settled_congr (by simp) (by simp) h, ?_, by simp, by simp, ?_, ?_, by simp, by simp, ?_⟩
  · exact fun r _ => by simp
  · exact ⟨by simp, by simp⟩
  · exact fun a => by simp
  · exact (s.finishAt s.pc).timerStep_calls_cases

/-! ### UNKNOWN -/

theorem toNat_add_two (w : Word) : (w + 2).toNat = (w.toNat + 2) % 65536 := BitVec.toNat_add w 2

/-- Setting `PC` at the end of a meaning changes nothing else of the block (R104). -/
theorem onlyRegs_finishAt (s : State) (p : Word) : onlyRegs [] s (s.finishAt p) :=
  ⟨fun _ _ => rfl, rfl, ⟨rfl, rfl⟩, ⟨rfl, rfl, rfl⟩, fun _ => rfl, rfl, rfl, rfl⟩

/-- Settles O37: whatever the word, the meaning is the advance of `PC` alone. -/
theorem unknownResult : Obligations.UnknownResult :=
  fun _ s => ⟨s.advance, ⟨rfl, s.advance_held, toNat_add_two s.pc⟩, onlyRegs_finishAt s (s.pc + 2)⟩

end Sys2Proof.Machine
end

section
/-! PROOFS. Control flow (41_control_flow.md R120 to R127): the jumps, Call and Return with the return stack between
them, and the four compare-and-skip instructions. -/

namespace Sys2Proof.Machine

/-! ### The jumps -/

/-- A meaning that ends by setting `PC` completes there: a word is already below 2^16 (40_cycle.md R104). -/
theorem completesAt_finishAt {i : Instr} {s u : State} {p : Word} {n : Nat} (h : exec i s = .next (u.finishAt p))
    (hp : p.toNat = n) : completesAt i s (u.finishAt p) n :=
  ⟨h, rfl, by rw [← hp, State.finishAt_pc, Nat.mod_eq_of_lt p.isLt]⟩

/-- Settles O30: the encoder puts the address under the nibble 1, and the meaning sets `PC` to it. -/
theorem jumpAbsoluteResult : Obligations.JumpAbsoluteResult :=
  fun addr s => ⟨wordNNN_toNat 0x1 addr, _, completesAt_finishAt rfl (toNat_zextAddr addr), onlyRegs_finishAt s _⟩

/-- A byte and an address do not wrap a word: "no masking beyond natural 16-bit wraparound" (R127). -/
theorem toNat_indexedTarget (b : Byte) (a : Addr) : (zextByte b + zextAddr a).toNat = b.toNat + a.toNat := by
  have := b.isLt
  have := a.isLt
  rw [BitVec.toNat_add, toNat_zextByte, toNat_zextAddr]; omega

/-- Settles O36: the sum fits a word, so `PC` is the sum itself. -/
theorem jumpIndexedResult : Obligations.JumpIndexedResult := by
  intro addr s
  have hpc := toNat_indexedTarget (s.readV 0) addr
  exact ⟨_, completesAt_finishAt rfl hpc, hpc, onlyRegs_finishAt s _⟩

/-! ### The return stack -/

theorem execCall_free {addr : Addr} {s : State} (h : s.sp.val < 16) :
    execCall addr s = .next ((s.push (s.pc + 2)).finishAt (zextAddr addr)) :=
  if_neg (by simp only [State.stackFull, beq_iff_eq]; omega)

theorem execCall_full {addr : Addr} {s : State} (h : s.sp.val = 16) : execCall addr s = .fault .stackOverflow :=
  if_pos (beq_iff_eq.mpr h)

theorem execReturn_outstanding {s : State} (h : 0 < s.sp.val) :
    execReturn s = .next (s.popped.finishAt s.topSlot) :=
  if_neg fun e => h.ne' (congrArg Fin.val e)

theorem execReturn_empty {s : State} (h : s.sp.val = 0) : execReturn s = .fault .stackUnderflow :=
  if_pos (Fin.ext h)

/-- The slot Return reads is the one under `SP` (R122). -/
theorem State.topSlot_eq {s : State} {k : Fin 16} (h : s.sp.val = k.val + 1) : s.topSlot = s.stack[k.val] := by
  simp [State.topSlot, h]

/-- Settles O31: a free slot is written by the push and no other is, and with none free the check fails. -/
theorem callResult : Obligations.CallResult := by
  intro addr s
  refine ⟨fun hfree => ?_, fun hfull => execCall_full hfull⟩
  refine ⟨_, completesAt_finishAt (execCall_free hfree) (toNat_zextAddr addr), s.push_sp _ hfree, fun k => ?_, ?_⟩
  · simp only [State.finishAt_stack, s.push_stack _ hfree, Vector.getElem_set, eq_comm]
  · simp [sameRegs, sameTimers, sameMemory, sameOutside]

/-- Settles O32: the encoder's fixed word, the pop of a slot that is kept, and the check of an empty stack. -/
theorem returnResult : Obligations.ReturnResult := by
  intro s
  refine ⟨rfl, fun k hk => ?_, fun hempty => execReturn_empty hempty⟩
  have hpc : s.topSlot.toNat = (s.stack[k.val]).toNat := by rw [State.topSlot_eq hk]
  have hsp : s.popped.sp.val = k.val := by rw [State.popped_sp, hk, Nat.add_sub_cancel]
  refine ⟨_, completesAt_finishAt (execReturn_outstanding (by omega)) hpc, hsp, rfl, ?_⟩
  simp [sameRegs, sameTimers, sameMemory, sameOutside]

/-- Settles O33: Return pops the slot Call pushed, at the `SP` Call left. -/
theorem callThenReturn : Obligations.CallThenReturn := by
  intro addr s t u hcall hsp hstack
  obtain ⟨hfree, rfl⟩ := execCall_next hcall
  have hu : u.sp.val = s.sp.val + 1 := by rw [hsp, State.finishAt_sp, s.push_sp _ hfree]
  refine ⟨_, execReturn_outstanding (by omega), ?_, ?_⟩
  · have htop : u.topSlot = u.stack[s.sp.val] := State.topSlot_eq (k := ⟨s.sp.val, hfree⟩) hu
    simp [htop, hstack, s.push_stack _ hfree]
  · exact Fin.ext (by rw [State.finishAt_sp, State.popped_sp, hu, Nat.add_sub_cancel])

/-! ### The compare-and-skip instructions -/

/-- A skip moves `PC` past two instructions when the condition holds, else past one (R123 to R126). -/
theorem State.skipIf_pc_toNat (s : State) (c : Bool) :
    (s.skipIf c).pc.toNat = (s.pc.toNat + if c then 4 else 2) % 65536 := by
  cases c with
  | true => exact BitVec.toNat_add s.pc 4
  | false => exact toNat_add_two s.pc

/-- A meaning that skips by one condition completes where the skip leads and changes nothing else. -/
theorem completes_skipIf {i : Instr} {s : State} {c : Bool} (h : exec i s = .next (s.skipIf c)) :
    ∃ t, completesAt i s t (s.pc.toNat + if c then 4 else 2) ∧ onlyRegs [] s t :=
  ⟨_, ⟨h, rfl, s.skipIf_pc_toNat c⟩, onlyRegs_finishAt s _⟩

theorem completes_skipIf_eq {i : Instr} {s : State} {a b : Byte} (h : exec i s = .next (s.skipIf (a == b))) :
    ∃ t, completesAt i s t (s.pc.toNat + if a.toNat = b.toNat then 4 else 2) ∧ onlyRegs [] s t := by
  simpa only [beq_iff_eq, BitVec.toNat_inj] using completes_skipIf h

theorem completes_skipIf_ne {i : Instr} {s : State} {a b : Byte} (h : exec i s = .next (s.skipIf (a != b))) :
    ∃ t, completesAt i s t (s.pc.toNat + if a.toNat = b.toNat then 2 else 4) ∧ onlyRegs [] s t := by
  simpa only [bne_iff_ne, ne_eq, ite_not, BitVec.toNat_inj] using completes_skipIf h

/-- Settles O34: both skip by the comparison of `V[x]` with the immediate. -/
theorem immediateSkips : Obligations.ImmediateSkips :=
  fun _ _ _ => ⟨completes_skipIf_eq rfl, completes_skipIf_ne rfl⟩

/-- Settles O35: both skip by the comparison of `V[x]` with `V[y]`. -/
theorem registerSkips : Obligations.RegisterSkips :=
  fun _ _ _ => ⟨completes_skipIf_eq rfl, completes_skipIf_ne rfl⟩

end Sys2Proof.Machine
end

section
/-! PROOFS. Data movement (42_data_movement.md R140 to R150): a meaning that makes one write and advances `PC`
completes two bytes on, with that write as its whole effect. One lemma says this for each kind of write: a general
register, `I`, and the bytes from `I` on. -/

namespace Sys2Proof.Machine

/-! ### Writes of one general register or of `I` -/

/-- A meaning that ends with the advance, over operations that leave `PC`, completes two bytes on (R104). -/
theorem completesAt_advance {i : Instr} {s u : State} (h : exec i s = .next u.advance) (hpc : u.pc = s.pc) :
    completesAt i s u.advance (s.pc.toNat + 2) :=
  ⟨h, u.advance_held, by rw [State.advance_pc, hpc, toNat_add_two]⟩

theorem onlyRegs_writeV_advance (s : State) (x : Reg) (b : Byte) : onlyRegs [x] s (s.writeV x b).advance :=
  ⟨fun _ hr => s.readV_writeV_ne b (List.mem_singleton.not.mp hr), rfl, ⟨rfl, rfl⟩, ⟨rfl, rfl, rfl⟩, fun _ => rfl,
    rfl, rfl, rfl⟩

theorem onlyIndex_setI_advance (s : State) (w : Word) : onlyIndex s (s.setI w).advance :=
  ⟨fun _ _ => rfl, ⟨rfl, rfl⟩, ⟨rfl, rfl, rfl⟩, fun _ => rfl, rfl, rfl, rfl⟩

theorem completes_writeV {i : Instr} {s : State} {x : Reg} {b : Byte}
    (h : exec i s = .next (s.writeV x b).advance) :
    ∃ t, completesAt i s t (s.pc.toNat + 2) ∧ t.readV x = b ∧ onlyRegs [x] s t :=
  ⟨_, completesAt_advance h rfl, s.readV_writeV_self x b, onlyRegs_writeV_advance s x b⟩

theorem completes_setI {i : Instr} {s : State} {w : Word} {n : Nat} (h : exec i s = .next (s.setI w).advance)
    (hw : w.toNat = n) : ∃ t, completesAt i s t (s.pc.toNat + 2) ∧ t.i.toNat = n ∧ onlyIndex s t :=
  ⟨_, completesAt_advance h rfl, hw, onlyIndex_setI_advance s w⟩

/-- Settles O38: both meanings write `V[x]` alone, with the immediate or with `V[y]`. -/
theorem registerMoves : Obligations.RegisterMoves :=
  fun _ _ _ _ => ⟨completes_writeV rfl, completes_writeV rfl⟩

/-- Settles O39: the meaning writes `I` alone, with the address. -/
theorem setIndexResult : Obligations.SetIndexResult :=
  fun addr _ => completes_setI rfl (toNat_zextAddr addr)

/-- Five times a byte fits a word: the largest glyph address is 255 * 5 (R147). -/
theorem toNat_glyphAddress (b : Byte) :
    (zextByte b * BitVec.ofNat 16 Config.glyphStride).toNat = b.toNat * 5 := by
  have hb := b.isLt
  rw [BitVec.toNat_mul, toNat_zextByte]
  exact Nat.mod_eq_of_lt (show b.toNat * 5 < 65536 by omega)

/-- Settles O40: both write `I` alone; the sum wraps as a word's sum does, and the product, of `V[x]` by D8,
does not wrap. -/
theorem indexArithmetic : Obligations.IndexArithmetic := by
  intro x s
  have hsum : (s.i + zextByte (s.readV x)).toNat = (s.i.toNat + (s.readV x).toNat) % 65536 := by
    rw [BitVec.toNat_add, toNat_zextByte]
  exact ⟨completes_setI rfl hsum, completes_setI rfl (toNat_glyphAddress (s.readV x))⟩

/-! ### The timers -/

/-- Settles O41: LoadDelayTimer writes `V[x]` alone, and the two stores their timer alone, the second after its call
of `tone_start`. -/
theorem timerTransfers : Obligations.TimerTransfers := by
  intro x s
  refine ⟨completes_writeV rfl, ⟨_, completesAt_advance rfl rfl, ?_⟩, ⟨_, completesAt_advance rfl rfl, ?_⟩⟩
  · simp [sameRegs, sameStack, sameMemory, sameOutside]
  · simp [sameRegs, sameStack, sameMemory]

/-! ### Transfers between registers and memory -/

theorem onlyBytes_storeBytes_advance (s : State) (bs : List Byte) :
    onlyBytes s.transferBase bs.length s (s.storeBytes bs).advance :=
  ⟨fun _ hout => Memory.read_writeBytes_outside hout, fun _ _ => rfl, rfl, ⟨rfl, rfl⟩, ⟨rfl, rfl, rfl⟩,
    rfl, rfl, rfl⟩

/-- A meaning that stores the bytes `bs` from `I` on, after the check of their range, completes where the range is
legal; byte `I + k` is then `bs[k]` (20_memory.md R54, R57). -/
theorem completes_storeBytes {i : Instr} {s : State} {bs : List Byte} {n : Nat} (hm : s.mem.wf)
    (hlen : bs.length = n) (hlegal : s.transferBase + n ≤ Config.memSize)
    (h : exec i s = checkRange s.transferBase n s (.next (s.storeBytes bs).advance)) :
    ∃ t, completesAt i s t (s.pc.toNat + 2) ∧
      (∀ (k : Nat) (hk : k < bs.length), t.mem.read (s.transferBase + k) = bs[k]) ∧
      onlyBytes s.transferBase n s t := by
  subst hlen
  rw [checkRange_legal s _ (.inr hlegal)] at h
  exact ⟨_, completesAt_advance h rfl, fun k hk => Memory.read_writeBytes_inside hm hlegal hk,
    onlyBytes_storeBytes_advance s bs⟩

theorem getElem_map_regsUpTo (f : Reg → Byte) {x k : Reg} (hk : k.val < ((regsUpTo x).map f).length) :
    ((regsUpTo x).map f)[k.val] = f k := by
  rw [List.getElem_map, getElem_regsUpTo]

/-- Settles O42: the bytes stored are the registers up to `x` in order, so byte `k` of them is `V[k]`. -/
theorem storeRegistersResult : Obligations.StoreRegistersResult := by
  intro x s hm hbase
  have hlen : ((regsUpTo x).map s.readV).length = x.val + 1 := by rw [List.length_map, length_regsUpTo]
  obtain ⟨t, hat, hbytes, honly⟩ :=
    completes_storeBytes (i := .storeRegistersToMemory x) hm hlen (by rw [memSize_eq]; omega) rfl
  refine ⟨rfl, t, hat, fun k hk => ?_, honly⟩
  have hk' : k.val < ((regsUpTo x).map s.readV).length := by rw [hlen]; exact Nat.lt_succ_of_le hk
  rw [hbytes k.val hk', getElem_map_regsUpTo]

/-- Settles O43: the registers up to `x` are exactly the ones the transfer loads, from a memory it leaves. -/
theorem loadRegistersResult : Obligations.LoadRegistersResult := by
  intro x s hbase
  have hlegal : s.transferBase + (x.val + 1) ≤ Config.memSize := by rw [State.transferBase, memSize_eq]; omega
  have hexec : exec (.loadRegistersFromMemory x) s =
      .next (loadRegs s.mem s.transferBase (regsUpTo x) s).advance := checkRange_legal s _ (.inr hlegal)
  refine ⟨_, completesAt_advance hexec (by simp), fun k hk => ?_, fun k hk => ?_, ?_⟩
  · rw [State.advance_readV, loadRegs_readV, if_pos (mem_regsUpTo.mpr hk), State.transferBase]
  · rw [State.advance_readV, loadRegs_readV, if_neg (mem_regsUpTo.not.mpr (not_le_of_gt hk))]
  · simp [sameStack, sameTimers, sameMemory, sameOutside]

/-! ### The decimal digits -/

@[simp] theorem length_decimalDigits (b : Byte) : (decimalDigits b).length = 3 := rfl

theorem toNat_tens (b : Byte) : (b / 10 % 10).toNat = b.toNat / 10 % 10 := by
  rw [BitVec.toNat_umod, BitVec.toNat_udiv]; rfl

/-- Settles O44: the three bytes stored are the quotients and remainders of `V[x]` (D8) by 100 and 10, which are the
digits. -/
theorem decimalDigitsResult : Obligations.DecimalDigitsResult := by
  intro x s hm hbase
  obtain ⟨t, hat, hbytes, honly⟩ :=
    completes_storeBytes (i := .convertToDecimalDigits x) hm (length_decimalDigits (s.readV x))
      (by rw [memSize_eq]; omega) rfl
  have hhundreds : (t.mem.read s.transferBase).toNat = (s.readV x).toNat / 100 :=
    (congrArg BitVec.toNat (hbytes 0 (by simp))).trans BitVec.toNat_udiv
  have htens : (t.mem.read (s.transferBase + 1)).toNat = (s.readV x).toNat / 10 % 10 :=
    (congrArg BitVec.toNat (hbytes 1 (by simp))).trans (toNat_tens _)
  have hones : (t.mem.read (s.transferBase + 2)).toNat = (s.readV x).toNat % 10 :=
    (congrArg BitVec.toNat (hbytes 2 (by simp))).trans BitVec.toNat_umod
  exact ⟨rfl, t, hat, by omega, by omega, by omega, honly⟩

end Sys2Proof.Machine
end

section
/-! PROOFS. Arithmetic (43_arithmetic.md R161 to R172): the results and flags as numbers, and one lemma
for each way an arithmetic meaning ends: the result alone, the result then the flag, the flag then the result. -/

namespace Sys2Proof.Machine

/-! ### The result alone -/

/-- A meaning that writes `V[x]` alone completes with the bits of the byte written. -/
theorem completes_writeV_bits {i : Instr} {s : State} {x : Reg} {b : Byte} {f : Nat → Bool}
    (h : exec i s = .next (s.writeV x b).advance) (hb : ∀ k, b.getLsbD k = f k) :
    ∃ t, completesAt i s t (s.pc.toNat + 2) ∧ onlyRegs [x] s t ∧ ∀ k, k < 8 → (t.readV x).getLsbD k = f k := by
  obtain ⟨t, hat, rfl, honly⟩ := completes_writeV h
  exact ⟨t, hat, honly, fun k _ => hb k⟩

/-- Settles O46: each meaning writes `V[x]` alone, with the operands combined bit by bit. -/
theorem bitwiseResults : Obligations.BitwiseResults :=
  fun _ _ _ => ⟨completes_writeV_bits rfl fun _ => BitVec.getLsbD_or,
    completes_writeV_bits rfl fun _ => BitVec.getLsbD_and, completes_writeV_bits rfl fun _ => BitVec.getLsbD_xor⟩

/-- Settles O50: the meaning writes `V[x]` alone, with a sum of bytes, which wraps at 256. -/
theorem addImmediateResult : Obligations.AddImmediateResult := by
  intro x kk s
  obtain ⟨t, hat, hsum, honly⟩ := completes_writeV (i := .addImmediate x kk) (s := s) rfl
  exact ⟨t, hat, honly, by rw [hsum, BitVec.toNat_add]⟩

/-! ### Results and flags as numbers -/

@[simp] theorem toNat_flagByte (b : Bool) : (flagByte b).toNat = b.toNat := by cases b <;> rfl

theorem flagByte_inj {b c : Bool} : flagByte b = flagByte c ↔ b = c := by cases b <;> cases c <;> decide

/-- Nine bits hold the sum of two bytes (R165). -/
theorem toNat_sum9 (a b : Byte) : (sum9 a b).toNat = a.toNat + b.toNat := by
  have := a.isLt
  have := b.isLt
  rw [sum9, BitVec.toNat_add, BitVec.toNat_setWidth_of_le (by decide), BitVec.toNat_setWidth_of_le (by decide)]
  omega

theorem toNat_sum9_low (a b : Byte) : ((sum9 a b).extractLsb' 0 8).toNat = (a.toNat + b.toNat) % 256 := by
  rw [BitVec.extractLsb'_toNat, toNat_sum9, Nat.shiftRight_zero]

/-- The carry is the ninth bit of the sum (R165). -/
theorem toNat_carry (a b : Byte) : (flagByte ((sum9 a b).getLsbD 8)).toNat = (a.toNat + b.toNat) / 256 := by
  have := a.isLt
  have := b.isLt
  rw [toNat_flagByte, BitVec.getLsbD, Nat.toNat_testBit, toNat_sum9]
  omega

theorem toNat_difference (a b : Byte) : (a - b).toNat = (a.toNat + 256 - b.toNat) % 256 := by
  have := b.isLt
  rw [BitVec.toNat_sub]
  omega

theorem toNat_subtractFlag (a b : Byte) :
    (subtractFlag .reference a b).toNat = if b.toNat < a.toNat then 1 else 0 := by
  simp only [subtractFlag, toNat_flagByte, Bool.toNat, Bool.cond_decide, BitVec.lt_def]

theorem toNat_shiftRight_one (a : Byte) : (a >>> 1).toNat = a.toNat / 2 := by
  rw [BitVec.toNat_ushiftRight, Nat.shiftRight_one]

theorem toNat_shiftLeft_one (a : Byte) : (a <<< 1).toNat = a.toNat * 2 % 256 := by
  rw [BitVec.toNat_shiftLeft, Nat.shiftLeft_eq]

theorem toNat_shiftRightFlag (a : Byte) : (shiftRightFlag a).toNat = a.toNat % 2 := by
  rw [shiftRightFlag, BitVec.toNat_and]
  exact Nat.and_one_is_mod _

theorem toNat_highBit (a : Byte) : (a.getLsbD 7).toNat = a.toNat / 128 := by
  have := a.isLt
  rw [BitVec.getLsbD, Nat.toNat_testBit]
  omega

/-- The mask 0x80 keeps the high bit at its place (R169). -/
theorem toNat_shiftLeftFlag (a : Byte) : (shiftLeftFlag .reference a).toNat = a.toNat / 128 * 128 := by
  rw [← toNat_highBit, shiftLeftFlag, BitVec.toNat_and]
  exact Nat.and_two_pow _ 7

/-- Settles O51: the comparisons `<` and `≤` agree unless the operands are equal, and the high bit is worth 128 where
it stands and 1 shifted down. -/
theorem flagConventionsDiffer : Obligations.FlagConventionsDiffer := by
  intro a b
  constructor
  · calc subtractFlag .reference a b ≠ subtractFlag .conventional a b
        ↔ ¬(b < a ↔ b ≤ a) := by rw [subtractFlag, subtractFlag, ne_eq, flagByte_inj, decide_eq_decide]
      _ ↔ a = b := by rw [BitVec.lt_def, BitVec.le_def, ← BitVec.toNat_inj]; omega
  · rw [toNat_shiftLeftFlag, shiftLeftFlag, toNat_flagByte, toNat_highBit]

/-! ### The result and the flag -/

/-- Two writes, to `V[x]` and the flag register in either order, are the whole effect of a meaning that makes them
and advances `PC`. -/
theorem onlyRegs_writeV_writeV_advance (s : State) (p q : Reg) (a b : Byte) {ds : List Reg} (hp : p ∈ ds)
    (hq : q ∈ ds) : onlyRegs ds s ((s.writeV p a).writeV q b).advance := by
  refine ⟨fun r hr => ?_, rfl, ⟨rfl, rfl⟩, ⟨rfl, rfl, rfl⟩, fun _ => rfl, rfl, rfl, rfl⟩
  rw [State.advance_readV, State.readV_writeV_ne _ _ (ne_of_mem_of_not_mem hq hr).symm,
    State.readV_writeV_ne _ _ (ne_of_mem_of_not_mem hp hr).symm]

section
variable {i : Instr} {s : State} {x : Reg} {result flag : Byte} {m n : Nat}

/-- With the flag written last, `VF` holds the flag whatever `x` is (R165, R171). -/
theorem completes_resultThenFlag (h : exec i s = .next (s.writeResultThenFlag x result flag).advance)
    (hflag : flag.toNat = n) (hresult : result.toNat = m) :
    ∃ t, completesAt i s t (s.pc.toNat + 2) ∧ onlyRegs [x, 15] s t ∧ (t.readV 15).toNat = n ∧
      (x ≠ 15 → (t.readV x).toNat = m) := by
  refine ⟨_, completesAt_advance h rfl, onlyRegs_writeV_writeV_advance s x flagReg _ _ (by simp) (by simp), ?_,
    fun hx => ?_⟩
  · rw [State.advance_readV, State.writeResultThenFlag, State.readV_writeV_self, hflag]
  · rw [State.advance_readV, State.writeResultThenFlag, State.readV_writeV_ne _ _ hx, State.readV_writeV_self, hresult]

/-- With the result written last, `V[x]` holds the result, also where `x` is the flag register (R166 to R169,
R171). -/
theorem completes_flagThenResult (h : exec i s = .next (s.writeFlagThenResult x flag result).advance)
    (hresult : result.toNat = m) (hflag : flag.toNat = n) :
    ∃ t, completesAt i s t (s.pc.toNat + 2) ∧ onlyRegs [x, 15] s t ∧ (t.readV x).toNat = m ∧
      (x ≠ 15 → (t.readV 15).toNat = n) := by
  refine ⟨_, completesAt_advance h rfl, onlyRegs_writeV_writeV_advance s flagReg x _ _ (by simp) (by simp), ?_,
    fun hx => ?_⟩
  · rw [State.advance_readV, State.writeFlagThenResult, State.readV_writeV_self, hresult]
  · rw [State.advance_readV, State.writeFlagThenResult, State.readV_writeV_ne _ _ hx.symm, State.readV_writeV_self,
      hflag]

end

/-- Settles O47: the low eight bits of the 9-bit sum, then its ninth bit. -/
theorem addResult : Obligations.AddResult :=
  fun _ _ _ => completes_resultThenFlag rfl (toNat_carry _ _) (toNat_sum9_low _ _)

/-- Settles O48: the same difference and flag, with the operands exchanged in the second. -/
theorem subtractResults : Obligations.SubtractResults :=
  fun _ _ _ => ⟨completes_flagThenResult rfl (toNat_difference _ _) (toNat_subtractFlag _ _),
    completes_flagThenResult rfl (toNat_difference _ _) (toNat_subtractFlag _ _)⟩

/-- Settles O49: half and double as bytes, each after the flag of the bit shifted out. -/
theorem shiftResults : Obligations.ShiftResults :=
  fun _ _ => ⟨completes_flagThenResult rfl (toNat_shiftRight_one _) (toNat_shiftRightFlag _),
    completes_flagThenResult rfl (toNat_shiftLeft_one _) (toNat_shiftLeftFlag _)⟩

end Sys2Proof.Machine
end

section
/-! PROOFS. Input and output (44_io.md R180 to R185): a capability call touches nothing of the block, so each meaning
changes of the block only what it writes after its call. -/

namespace Sys2Proof.Machine

/-! ### A capability call and the block -/

/-- Of the block, only the registers `ds` and `PC` may differ; calls, answers and the display are outside it. -/
def blockButRegs (ds : List Reg) (s t : State) : Prop :=
  sameRegs ds s t ∧ t.i = s.i ∧ sameStack s t ∧ sameTimers s t ∧ sameMemory s t

theorem blockButRegs_clearDisplay (s : State) : blockButRegs [] s s.clearDisplay := by
  simp [blockButRegs, sameRegs, sameStack, sameTimers, sameMemory]

theorem blockButRegs_askDraw (s : State) (x y : Byte) (rows : List Byte) :
    blockButRegs [] s (s.askDraw x y rows) := by
  simp [blockButRegs, sameRegs, sameStack, sameTimers, sameMemory]

theorem blockButRegs_askRandom (s : State) : blockButRegs [] s s.askRandom :=
  ⟨fun _ _ => rfl, rfl, ⟨rfl, rfl⟩, ⟨rfl, rfl, rfl⟩, fun _ => rfl⟩

theorem blockButRegs_askPoll (s : State) : blockButRegs [] s s.askPoll :=
  ⟨fun _ _ => rfl, rfl, ⟨rfl, rfl⟩, ⟨rfl, rfl, rfl⟩, fun _ => rfl⟩

theorem blockButRegs_answeredWait (s : State) : blockButRegs [] s (s.tookWait.callOut .waitForKey) :=
  ⟨fun _ _ => rfl, rfl, ⟨rfl, rfl⟩, ⟨rfl, rfl, rfl⟩, fun _ => rfl⟩

/-- A call, then an operation that may change the registers `ds` and `PC`. -/
theorem blockButRegs.onlyRegs {ds : List Reg} {s u t : State} (hcall : blockButRegs [] s u) (h : onlyRegs ds u t) :
    blockButRegs ds s t := by
  obtain ⟨hv, hi, ⟨hsp, hstack⟩, ⟨hdt, hst, htick⟩, hmem⟩ := hcall
  obtain ⟨hv', hi', ⟨hsp', hstack'⟩, ⟨hdt', hst', htick'⟩, hmem', -⟩ := h
  exact ⟨fun r hr => (hv' r hr).trans (hv r List.not_mem_nil), hi'.trans hi,
    ⟨hsp'.trans hsp, hstack'.trans hstack⟩, ⟨hdt'.trans hdt, hst'.trans hst, htick'.trans htick⟩,
    fun a => (hmem' a).trans (hmem a)⟩

/-! ### The display: ClearScreen and DrawSprite -/

section
variable {s : State}

theorem State.clearDisplay_external (h : s.display = .external) : s.clearDisplay.display = .external := by
  simp [State.clearDisplay, h]

theorem State.clearDisplay_reference {pix : Pixels} (h : s.display = .reference pix) :
    s.clearDisplay.display = .reference Pixels.blank := by
  simp [State.clearDisplay, h]

/-- The host's display answers from its list and is not held by the block (R182; log 2). -/
theorem State.askDraw_external (x y : Byte) (rows : List Byte) (h : s.display = .external) :
    (s.askDraw x y rows).display = .external ∧
      (s.askDraw x y rows).inputs = { s.inputs with hits := s.inputs.hits.tail, asked := s.inputs.asked + 1 } := by
  simp [State.askDraw, h]

/-- A composed reference display draws, and the host answers nothing (log 4). -/
theorem State.askDraw_reference {pix : Pixels} (x y : Byte) (rows : List Byte) (h : s.display = .reference pix) :
    (s.askDraw x y rows).display = .reference (pix.draw x y rows).1 ∧ (s.askDraw x y rows).inputs = s.inputs := by
  simp [State.askDraw, h]

end

/-- Settles O52: the call leaves the block, and a composed display is the blank grid. -/
theorem clearScreenResult : Obligations.ClearScreenResult := by
  intro s
  exact ⟨rfl, _, completesAt_advance rfl s.clearDisplay_pc, s.clearDisplay_calls, s.clearDisplay_inputs,
    State.clearDisplay_external, fun _ hd => ⟨_, State.clearDisplay_reference hd, Pixels.lit_blank⟩,
    (blockButRegs_clearDisplay s).onlyRegs (onlyRegs_finishAt _ _)⟩

theorem Memory.getElem?_readBytes (m : Memory) (a : Nat) {n k : Nat} (hk : k < n) :
    (m.readBytes a n)[k]? = some (m.read (a + k)) := by
  have hlen : k < (m.readBytes a n).length := by rwa [m.length_readBytes]
  rw [List.getElem?_eq_getElem hlen, m.getElem_readBytes]

theorem execDrawSprite_legal {x y : Reg} {n : Fin 16} {s : State} (h : n.val = 0 ∨ s.i.toNat + n.val ≤ 4096) :
    execDrawSprite x y n s =
      .next ((s.askDraw (s.readV x) (s.readV y) (s.mem.readBytes s.i.toNat n.val)).writeV flagReg
        (flagByte (s.drawAnswer (s.readV x) (s.readV y) (s.mem.readBytes s.i.toNat n.val)))).advance :=
  checkRange_legal s _ h

/-- Settles O54: on legal addresses the meaning is the draw call with the bytes read from `I` on, then the answer
written to `VF`; who answers depends on the display. -/
theorem drawSpriteResult : Obligations.DrawSpriteResult := by
  intro x y n s hlegal
  refine ⟨_, s.mem.readBytes s.i.toNat n.val, completesAt_advance (execDrawSprite_legal hlegal) (s.askDraw_pc ..),
    s.mem.length_readBytes .., fun k hk => s.mem.getElem?_readBytes _ hk, s.askDraw_calls .., ?flag, ?reference,
    ?external, (blockButRegs_askDraw s ..).onlyRegs (onlyRegs_writeV_advance _ flagReg _)⟩
  case flag =>
    rw [State.advance_readV, State.readV_writeV_self, toNat_flagByte, Bool.toNat, Bool.cond_eq_ite]
  case reference =>
    intro pix hd
    obtain ⟨hdisplay, hinputs⟩ := s.askDraw_reference _ _ _ hd
    exact ⟨hinputs, drawAnswer_reference _ _ _ hd, hdisplay⟩
  case external =>
    intro hd
    obtain ⟨hdisplay, hinputs⟩ := s.askDraw_external _ _ _ hd
    exact ⟨hdisplay, fun _ => drawAnswer_listed _ _ _ hd, hinputs⟩

/-! ### GenerateRandomByte -/

/-- Settles O53: the call's answer, under the mask bit by bit, is all that is written. -/
theorem randomByteResult : Obligations.RandomByteResult := by
  intro x mask s
  refine ⟨_, completesAt_advance rfl rfl, rfl, fun k _ => ?_, fun _ => randomAnswer_listed, rfl, rfl,
    (blockButRegs_askRandom s).onlyRegs (onlyRegs_writeV_advance _ x _)⟩
  rw [State.advance_readV, State.readV_writeV_self, BitVec.getLsbD_and]

/-! ### The key skips -/

theorem keyNamed_eq_some {b : Byte} {k : Key} (h : b.toNat = k.val) : keyNamed b = some k := by
  rw [keyNamed, dif_pos (h ▸ k.isLt)]
  exact congrArg some (Fin.ext h)

section
variable {x : Reg} {s : State}

theorem execSkipIfKeyPressed_named {k : Key} (h : keyNamed (s.readV x) = some k) :
    execSkipIfKeyPressed x s = .next (s.askPoll.skipIf s.pollAnswer[k.val]) := by
  rw [execSkipIfKeyPressed, h]

theorem execSkipIfKeyNotPressed_named {k : Key} (h : keyNamed (s.readV x) = some k) :
    execSkipIfKeyNotPressed x s = .next (s.askPoll.skipIf (!s.pollAnswer[k.val])) := by
  rw [execSkipIfKeyNotPressed, h]

theorem execSkipIfKeyPressed_unnamed (h : keyNamed (s.readV x) = none) :
    execSkipIfKeyPressed x s = .fault (.invalidKeyIndex (s.readV x)) := by
  rw [execSkipIfKeyPressed, h, raiseFault]

theorem execSkipIfKeyNotPressed_unnamed (h : keyNamed (s.readV x) = none) :
    execSkipIfKeyNotPressed x s = .fault (.invalidKeyIndex (s.readV x)) := by
  rw [execSkipIfKeyNotPressed, h, raiseFault]

end

theorem skipLength_not (c : Bool) : (if !c then 4 else 2) = if c then 2 else 4 := by cases c <;> rfl

/-- A meaning that polls once and skips by a condition completes where the skip leads, with the poll as its one call. -/
theorem completes_pollSkip {i : Instr} {s : State} {c : Bool} {n : Nat} (h : exec i s = .next (s.askPoll.skipIf c))
    (hn : (if c then 4 else 2) = n) :
    ∃ t, completesAt i s t (s.pc.toNat + n) ∧ t.calls = s.calls ++ [.poll] ∧ t.display = s.display ∧
      t.inputs = { s.inputs with polls := s.inputs.polls.tail, asked := s.inputs.asked + 1 } ∧
      blockButRegs [] s t := by
  subst hn
  exact ⟨_, ⟨h, rfl, s.askPoll.skipIf_pc_toNat c⟩, rfl, rfl, rfl,
    (blockButRegs_askPoll s).onlyRegs (onlyRegs_finishAt _ _)⟩

/-- Settles O55: a register value below 16 names a key, whose state in the poll's answer is the one condition of the
first skip and its negation that of the second; any other value names none. -/
theorem keySkips : Obligations.KeySkips := by
  intro x s
  refine ⟨fun _ => pollAnswer_listed, fun k hk => ?named, fun hk => ?unnamed⟩
  case named =>
    have hkey := keyNamed_eq_some hk
    exact ⟨completes_pollSkip (execSkipIfKeyPressed_named hkey) rfl,
      completes_pollSkip (execSkipIfKeyNotPressed_named hkey) (skipLength_not _)⟩
  case unnamed =>
    have hkey := keyNamed_eq_none.mpr hk
    exact ⟨execSkipIfKeyPressed_unnamed hkey, execSkipIfKeyNotPressed_unnamed hkey⟩

/-! ### WaitForKey -/

theorem execWaitForKey_answered {s : State} {x : Reg} {k : Key} (h : s.waitAnswer = some k) :
    execWaitForKey x s = .next ((s.tookWait.callOut .waitForKey).writeV x (BitVec.ofNat 8 k.val)).advance := by
  rw [execWaitForKey, waitOutcome, h]

/-- A key's index fits a byte (R185; D19). -/
theorem toNat_keyByte (k : Key) : (BitVec.ofNat 8 k.val).toNat = k.val :=
  Nat.mod_eq_of_lt (Nat.lt_trans k.isLt (by decide))

/-- Settles O56: the call is recorded with the answer, and the key's index is all that is written. -/
theorem waitForKeyResult : Obligations.WaitForKeyResult := by
  intro x k s
  refine ⟨waitAnswer_listed, fun hk => ⟨_, completesAt_advance (execWaitForKey_answered hk) rfl, ?_, rfl, rfl, rfl,
    (blockButRegs_answeredWait s).onlyRegs (onlyRegs_writeV_advance _ x _)⟩⟩
  rw [State.advance_readV, State.readV_writeV_self, toNat_keyByte]

/-- Settles O59: the meaning is the hold, which has the block of the state it holds. -/
theorem waitForKeyHolds : Obligations.WaitForKeyHolds :=
  fun _ s => ⟨waitAnswer_listed, fun hnone => ⟨s.hold, execWaitForKey_unanswered hnone, s.hold_held,
    sameBlock_hold.mp (sameBlock_refl _), rfl⟩⟩

end Sys2Proof.Machine
end

section
/-! PROOFS. Which instruction raises which fault (60_exceptions.md R201 to R204, R209), the timer step and the tone
signal (R214 to R217). -/

namespace Sys2Proof.Machine

/-! ### The origin of every fault -/

/-- A transfer of at least one byte that faults would have used an address of 4096 or more (R204). -/
theorem transfer_fault {n : Nat} {s t : State} {f : Fault}
    (h : checkRange s.transferBase n s (.next t) = .fault f) :
    f = .memoryOutOfRange (max s.i.toNat 4096) ∧ 0 < n ∧ 4096 < s.i.toNat + n := by
  obtain ⟨hout, hf⟩ := checkRange_next_fault h
  simp only [State.transferBase, memSize_eq] at hout hf
  exact ⟨hf, by omega, by omega⟩

/-- Settles O12: each meaning that can fault has one fault and one condition, and every other meaning completes. -/
theorem faultOrigins : Obligations.FaultOrigins := by
  intro i s f h
  cases i with
  | call addr => obtain ⟨hf, hsp⟩ := execCall_fault h; exact .inl ⟨addr, rfl, hf, hsp⟩
  | ret => exact .inr (.inl ⟨rfl, execReturn_fault h⟩)
  | skipIfKeyPressed x => exact .inr (.inr (.inl ⟨x, .inl rfl, execSkipIfKeyPressed_fault h⟩))
  | skipIfKeyNotPressed x => exact .inr (.inr (.inl ⟨x, .inr rfl, execSkipIfKeyNotPressed_fault h⟩))
  | storeRegistersToMemory x =>
    obtain ⟨hf, -, hout⟩ := transfer_fault h
    exact .inr (.inr (.inr ⟨hf, .inl ⟨x, rfl, by omega⟩⟩))
  | loadRegistersFromMemory x =>
    obtain ⟨hf, -, hout⟩ := transfer_fault h
    exact .inr (.inr (.inr ⟨hf, .inr (.inl ⟨x, rfl, by omega⟩)⟩))
  | convertToDecimalDigits x =>
    obtain ⟨hf, -, hout⟩ := transfer_fault h
    exact .inr (.inr (.inr ⟨hf, .inr (.inr (.inl ⟨x, rfl, by omega⟩))⟩))
  | drawSprite x y n =>
    obtain ⟨hf, hn, hout⟩ := transfer_fault h
    exact .inr (.inr (.inr ⟨hf, .inr (.inr (.inr ⟨x, y, n, rfl, hn, hout⟩))⟩))
  | _ => cases h

/-! ### One timer step, and many -/

theorem State.timerStep_tick_toNat (s : State) : s.timerStep.tick.toNat = (s.tick.toNat + 1) % 8 := by
  rw [State.timerStep_tick]
  exact BitVec.toNat_add s.tick 1

/-- What both timers do in one timer step, as numbers: `(k + 1) / 8` is 1 on the wrap of `TICK` and else 0. -/
theorem toNat_satSub8_on_wrap (k : BitVec 3) (a : Byte) :
    (if k = 7 then satSub8 a Config.timerStep else a).toNat = a.toNat - 8 * ((k.toNat + 1) / 8) := by
  have hk := k.isLt
  have h7 : k = 7 ↔ k.toNat = 7 := BitVec.toNat_inj.symm
  split
  case isTrue hwrap => rw [satSub8_toNat, h7.mp hwrap]
  case isFalse hwrap => rw [h7] at hwrap; omega

theorem State.timerStep_dt_toNat (s : State) :
    s.timerStep.dt.toNat = s.dt.toNat - 8 * ((s.tick.toNat + 1) / 8) := by
  rw [State.timerStep_dt, toNat_satSub8_on_wrap]

theorem State.timerStep_st_toNat (s : State) :
    s.timerStep.st.toNat = s.st.toNat - 8 * ((s.tick.toNat + 1) / 8) := by
  rw [State.timerStep_st, toNat_satSub8_on_wrap]

/-- A timer step that does not wrap `TICK` leaves both timers (R214). -/
theorem State.timerStep_timers_of_no_wrap {s : State} (h : s.tick.toNat ≠ 7) :
    s.timerStep.dt = s.dt ∧ s.timerStep.st = s.st := by
  have hwrap : s.tick ≠ 7 := fun e => h (congrArg BitVec.toNat e)
  rw [State.timerStep_dt, State.timerStep_st, if_neg hwrap, if_neg hwrap]
  exact ⟨rfl, rfl⟩

/-- Settles O23: the timers fall by 8 in the step that wraps `TICK` and in no other, and the rest of the block is
kept. -/
theorem timerStepEffect : Obligations.TimerStepEffect := by
  intro s
  refine ⟨s.timerStep_tick_toNat, fun hwrap => ⟨?_, ?_⟩, State.timerStep_timers_of_no_wrap,
    fun r _ => s.timerStep_readV r, s.timerStep_i, s.timerStep_pc, ⟨s.timerStep_sp, s.timerStep_stack⟩,
    fun a => by rw [s.timerStep_mem], s.timerStep_inputs, s.timerStep_display⟩
  · exact State.timerStep_dt_toNat_of_wrap hwrap
  · rw [State.timerStep_st_toNat, hwrap]

/-- Settles O24, by induction on the number of timer steps: of `k + 1` steps from `TICK` the last one wraps exactly
when `(TICK + k + 1) / 8` is one more than `(TICK + k) / 8`. -/
theorem timersAfterManyCycles : Obligations.TimersAfterManyCycles := by
  intro k s
  induction k with
  | zero =>
    have htick := s.tick.isLt
    simp only [Function.iterate_zero_apply]
    omega
  | succ k ih =>
    obtain ⟨htick, hdt, hst⟩ := ih
    rw [Function.iterate_succ_apply', State.timerStep_tick_toNat, State.timerStep_dt_toNat, State.timerStep_st_toNat,
      htick, hdt, hst]
    omega

/-! ### The tone signal -/

/-- A meaning makes at most one capability call, and that is never `tone_end` (40_cycle.md R111; R216). -/
theorem exec_next_calls {i : Instr} {s t : State} (h : exec i s = .next t) :
    t.calls = s.calls ∨ ∃ c, c ≠ .toneEnd ∧ t.calls = s.calls ++ [c] := by
  cases i with
  | call addr => obtain ⟨-, rfl⟩ := execCall_next h; exact .inl (by simp)
  | ret => obtain ⟨-, rfl⟩ := execReturn_next h; exact .inl (by simp)
  | storeRegistersToMemory x => obtain ⟨-, e⟩ := checkRange_next h; cases e; exact .inl (by simp)
  | loadRegistersFromMemory x => obtain ⟨-, e⟩ := checkRange_next h; cases e; exact .inl (by simp)
  | convertToDecimalDigits x => obtain ⟨-, e⟩ := checkRange_next h; cases e; exact .inl (by simp)
  | waitForKey x =>
    obtain ⟨k, -, rfl⟩ | ⟨-, rfl⟩ := execWaitForKey_next h
    · exact .inr ⟨.waitForKey, nofun, by simp⟩
    · exact .inl (by simp)
  | skipIfKeyPressed x => obtain ⟨c, rfl⟩ := execSkipIfKeyPressed_next h; exact .inr ⟨.poll, nofun, by simp⟩
  | skipIfKeyNotPressed x => obtain ⟨c, rfl⟩ := execSkipIfKeyNotPressed_next h; exact .inr ⟨.poll, nofun, by simp⟩
  | drawSprite x y n =>
    obtain ⟨-, e⟩ := checkRange_next h; cases e
    exact .inr ⟨.draw (s.readV x) (s.readV y) (s.mem.readBytes s.transferBase n.val), nofun, by simp⟩
  | clearScreen => cases h; exact .inr ⟨.clear, nofun, by simp⟩
  | generateRandomByte x mask => cases h; exact .inr ⟨.nextByte, nofun, by simp⟩
  | storeSoundTimer x => cases h; exact .inr ⟨.toneStart, nofun, by simp⟩
  | _ => cases h; exact .inl (by simp)

theorem exec_next_count_toneEnd {i : Instr} {s t : State} (h : exec i s = .next t) :
    t.calls.count .toneEnd = s.calls.count .toneEnd := by
  obtain hcalls | ⟨c, hc, hcalls⟩ := exec_next_calls h
  · rw [hcalls]
  · rw [hcalls, List.count_append, List.count_singleton, if_neg (by simpa using hc), Nat.add_zero]

/-- Settles O25: no meaning signals `tone_end`, a held cycle has no timer step, and the timer step of a completed one
signals it on the crossing, which it sees by the `TICK` from before the cycle. -/
theorem toneEndOncePerCrossing : Obligations.ToneEndOncePerCrossing := by
  intro s t h
  obtain ⟨-, u, hexec, rfl⟩ := step_next h
  have hcount := exec_next_count_toneEnd hexec
  obtain ⟨htick, -, -⟩ := exec_next_timers hexec
  refine ⟨u, hexec, ?_⟩
  cases hheld : u.held with
  | true => simp [hcount]
  | false =>
    simp only [Bool.false_eq_true, if_false, true_and, State.timerStep_calls, List.count_append, hcount, htick]
    split <;> rfl

/-! ### The delay timer between writes -/

/-- Settles O26: the meaning keeps `DT`, and the timer step lowers it, on the wrap of `TICK` only. -/
theorem delayTimerNonIncreasing : Obligations.DelayTimerNonIncreasing := by
  intro s t h hstore
  obtain ⟨-, u, hexec, rfl⟩ := step_next h
  obtain ⟨htick, hdt, -⟩ := exec_next_timers hexec
  have hkept : u.dt = s.dt := hdt.resolve_right fun ⟨x, hi, _⟩ => hstore x hi
  rw [← hkept, ← htick]
  split
  case isTrue => exact ⟨le_rfl, absurd rfl⟩
  case isFalse =>
    refine ⟨by rw [u.timerStep_dt_toNat]; omega, fun hne => ?_⟩
    have hwrap : u.tick.toNat = 7 := Decidable.byContradiction fun hno => hne (State.timerStep_timers_of_no_wrap hno).1
    exact ⟨hwrap, by rw [u.timerStep_tick_toNat, hwrap]⟩

end Sys2Proof.Machine
end

section
/-! PROOFS. The reference display (60_exceptions.md R218, R222): one draw pixel by pixel, and the same draw twice. The
key fact is that no two 1 bits of a sprite fall on the same pixel (`spritePlaces_pairwise`), so each pixel is toggled at
most once. -/

namespace Sys2Proof.Machine

@[simp] theorem Pixels.lit_mod (p : Pixels) (a b : Nat) : p.lit (a % 64) (b % 32) = p.lit a b := by
  simp [Pixels.lit]

theorem xor_ne_left_iff : ∀ a b : Bool, (a ^^ b) ≠ a ↔ b = true := by decide

/-- Of places on different pixels at most one names the pixel `b`. -/
theorem countP_samePixel_odd_iff {cs : List (Nat × Nat)} (h : cs.Pairwise (fun a b => ¬samePixel a b)) (b : Nat × Nat) :
    cs.countP (fun a => samePixel a b) % 2 = 1 ↔ ∃ a ∈ cs, samePixel a b := by
  induction cs with
  | nil => simp
  | cons a cs ih =>
    obtain ⟨ha, hcs⟩ := List.pairwise_cons.mp h
    rw [List.countP_cons]
    by_cases hab : samePixel a b
    · have hrest : cs.countP (fun c => samePixel c b) = 0 := by
        refine List.countP_eq_zero.mpr fun c hc hcb => ha c hc ?_
        obtain ⟨hax, hay⟩ := hab
        obtain ⟨hcx, hcy⟩ := of_decide_eq_true hcb
        exact ⟨hax.trans hcx.symm, hay.trans hcy.symm⟩
      rw [hrest, if_pos (decide_eq_true hab)]
      exact iff_of_true rfl ⟨a, List.mem_cons_self, hab⟩
    · rw [if_neg (mt of_decide_eq_true hab), Nat.add_zero, ih hcs]
      simp only [List.mem_cons, exists_eq_or_imp, hab, false_or]

/-- A property of a place of the sprite, said of the 1 bits (spec decision D16: bit 7 is column 0). -/
theorem exists_mem_spritePlaces {px py : Nat} {rows : List Byte} {P : Nat × Nat → Prop} :
    (∃ q ∈ spritePlaces px py rows, P q) ↔
      ∃ r c row, rows[r]? = some row ∧ c < 8 ∧ row.getLsbD (7 - c) = true ∧ P (px + c, py + r) := by
  constructor
  · rintro ⟨q, hq, hP⟩
    obtain ⟨r, c, row, hr, hc, hbit, rfl⟩ := mem_spritePlaces.mp hq
    exact ⟨r, c, row, hr, hc, hbit, hP⟩
  · rintro ⟨r, c, row, hr, hc, hbit, hP⟩
    exact ⟨_, mem_spritePlaces.mpr ⟨r, c, row, hr, hc, hbit, rfl⟩, hP⟩

section
variable {rows : List Byte} (hrows : rows.length ≤ 15) (p : Pixels) (x y : Byte)
include hrows

theorem spritePlaces_distinct (px py : Nat) : (spritePlaces px py rows).Pairwise (fun a b => ¬samePixel a b) :=
  spritePlaces_pairwise (hrows.trans (by decide))

theorem Pixels.draw_lit_ne_iff (b : Nat × Nat) :
    (p.draw x y rows).1.lit b.1 b.2 ≠ p.lit b.1 b.2 ↔ ∃ a ∈ spritePlaces x.toNat y.toNat rows, samePixel a b := by
  rw [← countP_samePixel_odd_iff (spritePlaces_distinct hrows _ _), Pixels.draw, plot_lit, xor_ne_left_iff,
    decide_eq_true_iff]

theorem Pixels.draw_hit_iff :
    (p.draw x y rows).2 = true ↔ ∃ a ∈ spritePlaces x.toNat y.toNat rows, p.lit a.1 a.2 = true := by
  rw [Pixels.draw, plot_hit (spritePlaces_distinct hrows _ _)]
  simp

end

/-- Settles O57: both parts hold of the places of the sprite, and a place is a 1 bit of a row. -/
theorem referenceDrawPixels : Obligations.ReferenceDrawPixels := by
  intro p x y rows hrows
  constructor
  · intro px py hpx hpy
    rw [Pixels.draw_lit_ne_iff hrows p x y (px, py), exists_mem_spritePlaces]
    simp only [samePixel, Nat.mod_eq_of_lt hpx, Nat.mod_eq_of_lt hpy]
  · rw [Pixels.draw_hit_iff hrows, exists_mem_spritePlaces]
    simp only [Pixels.lit_mod]

/-! ### The same draw twice -/

/-- Each pixel is flipped as often by the second draw as by the first. -/
theorem Pixels.draw_draw (p : Pixels) (x y : Byte) (rows : List Byte) : ((p.draw x y rows).1.draw x y rows).1 = p := by
  refine Pixels.ext_lit fun px py => ?_
  simp only [Pixels.draw]
  rw [plot_lit _ _ _ (px, py), plot_lit _ _ _ (px, py), Bool.xor_assoc, Bool.xor_self, Bool.xor_false]

theorem row_ne_zero_iff (row : Byte) : row ≠ 0 ↔ ∃ c < 8, row.getLsbD (7 - c) = true := by
  constructor
  · intro hne
    by_contra hclear
    push Not at hclear
    refine hne (BitVec.eq_of_getLsbD_eq fun k hk => ?_)
    have hbit := hclear (7 - k) (by omega)
    rw [show 7 - (7 - k) = k by omega] at hbit
    simpa using hbit
  · rintro ⟨c, -, hbit⟩ rfl
    simp at hbit

/-- A sprite has a place exactly when one of its rows is not clear. -/
theorem exists_place_iff {px py : Nat} {rows : List Byte} :
    (∃ q, q ∈ spritePlaces px py rows) ↔ ∃ row ∈ rows, row ≠ 0 := by
  have h := exists_mem_spritePlaces (px := px) (py := py) (rows := rows) (P := fun _ => True)
  simp only [and_true] at h
  rw [h]
  simp only [row_ne_zero_iff, List.mem_iff_getElem?]
  exact ⟨fun ⟨r, c, row, hr, hc, hbit⟩ => ⟨row, ⟨r, hr⟩, c, hc, hbit⟩,
    fun ⟨row, ⟨r, hr⟩, c, hc, hbit⟩ => ⟨r, c, row, hr, hc, hbit⟩⟩

/-- The first draw on a clear grid lights every place of the sprite. -/
theorem Pixels.lit_draw_blank {rows : List Byte} (hrows : rows.length ≤ 15) (x y : Byte) {a : Nat × Nat}
    (ha : a ∈ spritePlaces x.toNat y.toNat rows) : (Pixels.blank.draw x y rows).1.lit a.1 a.2 = true := by
  have hne := (Pixels.draw_lit_ne_iff hrows Pixels.blank x y a).mpr ⟨a, ha, rfl, rfl⟩
  rwa [Pixels.lit_blank, Bool.ne_false_iff] at hne

/-- Settles O58: the second draw undoes the first, and on a clear grid it finds every place lit. -/
theorem drawTwiceRestores : Obligations.DrawTwiceRestores := by
  intro x y rows hrows
  refine ⟨fun p => p.draw_draw x y rows, ?_, ?_⟩
  · rw [← Bool.not_eq_true, Pixels.draw_hit_iff hrows]
    simp
  · rw [Pixels.draw_hit_iff hrows, ← exists_place_iff (px := x.toNat) (py := y.toNat)]
    exact exists_congr fun a => and_iff_left_of_imp (Pixels.lit_draw_blank hrows x y)

end Sys2Proof.Machine
end

section
/-! PROOFS. `load` (70_reset_and_hazards.md R241 to R243): the memory it makes, byte by byte, and then its two answers,
the loaded state or the error. -/

namespace Sys2Proof.Machine

/-! ### The memory with the font and a program -/

/-- What `load` makes of a memory: the font table at 0, then the program at 0x200 (R241). -/
def Memory.withProgram (m : Memory) (program : List Byte) : Memory :=
  (m.writeBytes 0 Config.font).writeBytes Config.loadBase program

theorem Memory.writeBytes_font_wf {m : Memory} (hm : m.wf) : (m.writeBytes 0 Config.font).wf :=
  Memory.writeBytes_wf hm (by simp)

/-- A program of legal length ends inside the memory (R242). -/
theorem loadBase_add_length_le {program : List Byte} (hlen : program.length ≤ 3584) :
    Config.loadBase + program.length ≤ Config.memSize := by
  rw [loadBase_eq, memSize_eq]
  omega

theorem Memory.withProgram_wf {m : Memory} {program : List Byte} (hm : m.wf) (hlen : program.length ≤ 3584) :
    (m.withProgram program).wf :=
  Memory.writeBytes_wf (Memory.writeBytes_font_wf hm) (loadBase_add_length_le hlen)

/-- The program starts above the font table, so it overwrites none of it. -/
theorem Memory.read_withProgram_font {m : Memory} {program : List Byte} {k : Nat} (hm : m.wf)
    (hk : k < Config.font.length) : (m.withProgram program).read k = Config.font[k] := by
  have hbelow : k < Config.loadBase := hk.trans (by decide)
  have hfont := Memory.read_writeBytes_inside (a := 0) hm (by simp) hk
  rw [Memory.withProgram, Memory.read_writeBytes_outside (.inl hbelow)]
  rwa [Nat.zero_add] at hfont

theorem Memory.read_withProgram_program {m : Memory} {program : List Byte} {k : Nat} (hm : m.wf)
    (hlen : program.length ≤ 3584) (hk : k < program.length) :
    (m.withProgram program).read (Config.loadBase + k) = program[k] :=
  Memory.read_writeBytes_inside (Memory.writeBytes_font_wf hm) (loadBase_add_length_le hlen) hk

theorem Memory.read_withProgram_outside {m : Memory} {program : List Byte} {a : Nat}
    (ha : (80 ≤ a ∧ a < 0x200) ∨ 0x200 + program.length ≤ a) : (m.withProgram program).read a = m.read a := by
  have hprogram : a < Config.loadBase ∨ Config.loadBase + program.length ≤ a := ha.imp_left And.right
  have hfont : a < 0 ∨ 0 + Config.font.length ≤ a := by rw [length_font]; omega
  rw [Memory.withProgram, Memory.read_writeBytes_outside hprogram, Memory.read_writeBytes_outside hfont]

/-! ### The two answers of `load` -/

theorem State.load_of_long (s : State) {program : List Byte} (hlen : 3584 < program.length) :
    s.load program = .tooLarge program.length := if_pos hlen

theorem State.load_of_fits (s : State) {program : List Byte} (hlen : program.length ≤ 3584) :
    s.load program = .loaded { s with pc := 0x0200, mem := s.mem.withProgram program } := if_neg hlen.not_gt

theorem State.load_loaded {s t : State} {program : List Byte} (h : s.load program = .loaded t) :
    program.length ≤ 3584 ∧ t = { s with pc := 0x0200, mem := s.mem.withProgram program } := by
  rcases Nat.lt_or_ge 3584 program.length with hlong | hfits
  · rw [s.load_of_long hlong] at h
    cases h
  · rw [s.load_of_fits hfits] at h
    exact ⟨hfits, (LoadResult.loaded.inj h).symm⟩

/-- Settles O19: the loaded memory reads the font table and, from 0x200 on, the program. -/
theorem loadPlacesFontAndProgram : Obligations.LoadPlacesFontAndProgram := by
  intro s program hm hlen
  refine ⟨_, s.load_of_fits hlen, rfl, fun k hk => ?_, fun k hk => ?_⟩
  · have hfont : k < Config.font.length := hk
    rw [List.getElem?_eq_getElem hfont, Memory.read_withProgram_font hm hfont]
  · rw [List.getElem?_eq_getElem hk]
    exact congrArg some (Memory.read_withProgram_program hm hlen hk)

/-- Settles O20: a loaded state differs from the old one in `PC` and memory alone, and there only in the font table and
the program. -/
theorem loadTouchesNothingElse : Obligations.LoadTouchesNothingElse := by
  intro s program
  refine ⟨s.load_of_long, fun t h => ?_⟩
  obtain ⟨hlen, rfl⟩ := State.load_loaded h
  exact ⟨hlen, fun _ _ => rfl, rfl, ⟨rfl, rfl⟩, ⟨rfl, rfl, rfl⟩, ⟨rfl, rfl, rfl⟩,
    fun _ => Memory.read_withProgram_outside⟩

/-- Settles O21: the writes keep the memory canonical, `PC` is 0x200, the slots are kept, and nothing is held. -/
theorem loadKeepsInvariant : Obligations.LoadKeepsInvariant := by
  intro s t program hs hheld h
  obtain ⟨hlen, rfl⟩ := State.load_loaded h
  exact {
    memory := Memory.withProgram_wf hs.memory hlen
    slots := hs.slots
    pcBound := (by decide : (0x0200 : Word).toNat ≤ 0x10FE)
    heldWaits := fun hholds => absurd (hheld.symm.trans hholds) Bool.false_ne_true }

end Sys2Proof.Machine
end
